-- ==== Sys2Proof/Word.lean ====
section
/-! DEFINITION. Word.lean: the word types of the Marlin frame codec (spec 00_scope.md R12). -/

namespace Sys2Proof

/-- `u8` (R12): one byte of the wire, of the receive buffer and of the staging record (R9, R55). -/
abbrev Byte := BitVec 8

/-- `u16` (R12): a VP address, a data word, an entry of `msg.data`. -/
abbrev Word := BitVec 16

/-- `u32` (R12): a wide integer payload. -/
abbrev DWord := BitVec 32

end Sys2Proof
end

