-- ==== Sys2Proof/Config.lean ====
section
/-! DEFINITION. Config.lean: the implementation parameters of spec 00_scope.md R10.
A parameter the spec marks OPEN is a field of `Params`, an argument of the model: every machine state carries the
parameters of the block it belongs to (log entry 1), no operation writes them (R11), and every statement that is made
for every state is made for every value of them. A parameter to which the spec gives a value is a constant here. -/

namespace Sys2Proof

/-- `BYTE_IN_WORD` (R10, R83): which half of a write-variable word carries a byte payload. -/
inductive BytePlacement where
  | high
  | low
deriving DecidableEq, Repr

/-- The parameters of R10 that stay arguments of the model. -/
structure Params where
  /-- `H1`, the first header marker byte: OPEN. -/
  h1 : Byte
  /-- `H2`, the second header marker byte: OPEN; nothing relates it to `H1` (R10, D2). -/
  h2 : Byte
  /-- `C_WREG`, the write-register command byte: OPEN. -/
  cWreg : Byte
  /-- `C_RREG`, the command byte of read-register and of its response: OPEN. -/
  cRreg : Byte
  /-- `C_WVAR`, the write-variable command byte: OPEN. -/
  cWvar : Byte
  /-- `C_RVAR`, the command byte of read-variable and of its response: OPEN. -/
  cRvar : Byte
  /-- `FASTPATH`, whether POLL recognises literal prefixes: OPEN. -/
  fastpath : Bool
  /-- `FP_LEN`, the literal length byte of the prefixes P3 and P4: OPEN. -/
  fpLen : Byte
  /-- `RX_CAP`, the receive buffer's capacity in bytes: 258 in the spec, any 7..258 as an argument. -/
  rxCap : Nat
  /-- `BYTE_IN_WORD`: OPEN. -/
  byteInWord : BytePlacement
  /-- `TX_GAP_US`, the pacing delay in microseconds: OPEN; timing only, no operation reads it (R111, R205). -/
  txGapUs : Nat
deriving DecidableEq, Repr

/-- The constraints R10 puts on every choice of parameters: the four command bytes are pairwise distinct (D3) and
`7 <= RX_CAP <= 258` (D9). -/
abbrev Params.Legal (p : Params) : Prop :=
  [p.cWreg, p.cRreg, p.cWvar, p.cRvar].Nodup ∧ 7 ≤ p.rxCap ∧ p.rxCap ≤ 258

/-- `REF` (R10, 92_eei_decisions.md D35): the parameter set the spec's test vectors use, with `RX_CAP` at the spec's own
value. DESIGN CHOICE (log entry 1): `State.reset` is the block with these parameters. -/
def Params.ref : Params where
  h1 := 0x5A
  h2 := 0xA5
  cWreg := 0x80
  cRreg := 0x81
  cWvar := 0x82
  cRvar := 0x83
  fastpath := true
  fpLen := 0x06
  rxCap := 258
  byteInWord := .high
  txGapUs := 1

/-- `OK0`: ASCII 'O' (R10, D4). -/
def ok0 : Byte := 0x4F

/-- `OK1`: ASCII 'K' (R10, D4). -/
def ok1 : Byte := 0x4B

/-- `MSG_CAP`: entries of `msg.data` (R10, D17). -/
abbrev msgCap : Nat := 252

/-- `TX_TEXT_MAX`: the longest text payload, and the size of the staging record's payload (R10, R28, R71). -/
abbrev txTextMax : Nat := 252

/-- The longest frame a one-byte LEN allows (R71). -/
abbrev maxFrame : Nat := 258

end Sys2Proof
end

