-- ==== Sys2Proof/Syntax.lean ====
section
/-! DEFINITION. Syntax.lean: the requests a controlling agent makes (spec 40_transmit.md R100, 60_exceptions.md R183),
the encoded forms an instruction is read from, and `Instr`, one constructor per row of spec/opcode_table.json
(30_encoding.md R93). -/

namespace Sys2Proof

/-- The command kind of a SEND request (R100). -/
inductive CmdKind where
  | wreg
  | rreg
  | wvar
  | rvar
deriving DecidableEq, Repr

/-- The two write commands, the only ones the codec sends and the only ones an acknowledgement answers (R91, R78). -/
inductive WriteCmd where
  | wreg
  | wvar
deriving DecidableEq, Repr

/-- `INT(width, signed, v)` of R100: an integer payload with its width and its signedness. -/
inductive IntPayload where
  | i16 (signed : Bool) (v : Word)
  | i32 (signed : Bool) (v : DWord)
deriving DecidableEq, Repr

/-- The typed payload of a SEND request (R100): `NONE`, `BYTE(b)`, `INT(width, signed, v)` or `TEXT(n, t)`, whose `n` is
the length of the list. -/
inductive Payload where
  | none
  | byte (b : Byte)
  | int (v : IntPayload)
  | text (t : List Byte)
deriving DecidableEq, Repr

/-- A SEND request (R100). -/
structure SendRequest where
  cmd : CmdKind
  addr : Word
  payload : Payload
deriving DecidableEq, Repr

/-- The three operations a controlling agent can ask for (R2, R183). -/
inductive Request where
  | reset
  | poll
  | send (q : SendRequest)
deriving DecidableEq, Repr

/-- What an instruction is decoded from: a typed operation request, or the bytes of a complete inbound frame (R2, R9). -/
inductive Source where
  | request (r : Request)
  | frame (bytes : List Byte)
deriving DecidableEq, Repr

/-- One constructor per row of spec/opcode_table.json (R93). An inbound row's `body` is the list of bytes after CMD: the
frame's LEN is `1 + body.length`. -/
inductive Instr where
  /-- SEND.WREG.NONE (R103). -/
  | sendWregNone (addr : Byte)
  /-- SEND.WREG.BYTE (R104). -/
  | sendWregByte (addr : Byte) (b : Byte)
  /-- SEND.WREG.INT (R105). -/
  | sendWregInt (addr : Byte) (v : IntPayload)
  /-- SEND.WVAR.NONE (R106). -/
  | sendWvarNone (addr : Word)
  /-- SEND.WVAR.BYTE (R107). -/
  | sendWvarByte (addr : Word) (b : Byte)
  /-- SEND.WVAR.INT (short) (R108): the integer is at most 65535. -/
  | sendWvarIntShort (addr : Word) (v : IntPayload)
  /-- SEND.WVAR.INT (long) (R108): the integer is above 65535. -/
  | sendWvarIntLong (addr : Word) (v : IntPayload)
  /-- SEND.WVAR.TEXT (R109): 1 to 252 bytes. -/
  | sendWvarText (addr : Word) (t : List Byte)
  /-- SEND.WVAR.TEXT (empty) (R109). -/
  | sendWvarTextEmpty (addr : Word)
  /-- SEND (refused) (R110): any request R91 lists. -/
  | sendRefused (q : SendRequest)
  /-- RX.ACK.WREG (R140). -/
  | rxAckWreg
  /-- RX.ACK.WVAR (R140). -/
  | rxAckWvar
  /-- RX.WRITE.NOTACK (R141). -/
  | rxWriteNotAck (cmd : WriteCmd) (body : List Byte)
  /-- RX.RVAR.RESP (R142), the frames that fail its length conditions among them. -/
  | rxRvarResp (body : List Byte)
  /-- RX.RREG.RESP (R143), the frames that fail its length conditions among them. -/
  | rxRregResp (body : List Byte)
  /-- RX.UNKNOWN (R144). -/
  | rxUnknown (cmd : Byte) (body : List Byte)
  /-- POLL (R130). -/
  | poll
  /-- RESET (R190). -/
  | reset
deriving DecidableEq, Repr

end Sys2Proof
end

