-- ==== Sys2Proof/Machine/Operands.lean ====
section
/-! DEFINITION. Machine/Operands.lean: the bit and byte operations of spec 00_scope.md R13 and the operand forms of
30_encoding.md R81 to R86: integers and bytes as payload bytes, addresses, the fields of an inbound frame, the fast-path
prefixes, and which requests the codec refuses (40_transmit.md R110). Nothing here reads the machine's state. -/

namespace Sys2Proof.Machine

/-- `hi8(w) = w[15:8]` (R13). -/
def hi8 (w : Word) : Byte := w.extractLsb' 8 8

/-- `lo8(w) = w[7:0]` (R13). -/
def lo8 (w : Word) : Byte := w.extractLsb' 0 8

/-- `word(hi, lo) = zext_16(hi) << 8 | zext_16(lo)` (R13, R51). -/
def word (hi lo : Byte) : Word := hi.setWidth 16 <<< 8 ||| lo.setWidth 16

/-- `ceil2(n)`, the number of 16-bit words that hold `n` bytes (R13). -/
def ceil2 (n : Nat) : Nat := (n + 1) / 2

/-- A 16-bit unit on the wire, high byte first (R51, R81). -/
def wordBytes (w : Word) : List Byte := [hi8 w, lo8 w]

/-- `n_val` (R82, R100): the mathematical integer an integer payload reads as, by its signedness. -/
def intValue : IntPayload → Int
  | .i16 true v => v.toInt
  | .i16 false v => v.toNat
  | .i32 true v => v.toInt
  | .i32 false v => v.toNat

/-- Whether the long encoding is used: exactly above 65535 (R82, D25). -/
def isLong (v : IntPayload) : Bool := decide (intValue v > 65535)

/-- `(n_val mod 2^32)[7:0]`, the one byte a register command carries for an integer (R84). -/
def intRegByte (v : IntPayload) : Byte := (BitVec.ofInt 32 (intValue v)).extractLsb' 0 8

/-- `W0 = n_val mod 2^16`, the word of the short form (R82). -/
def intShortWord (v : IntPayload) : Word := BitVec.ofInt 16 (intValue v)

/-- `n_val mod 2^32`, the value the long form splits (R82). -/
def intLongValue (v : IntPayload) : DWord := BitVec.ofInt 32 (intValue v)

/-- The payload bytes of the long form: the two words of a 32-bit value, the more significant first (R52, R82). -/
def longBytes (u : DWord) : List Byte := wordBytes (u.extractLsb' 16 16) ++ wordBytes (u.extractLsb' 0 16)

/-- The word a byte payload of a write-variable request is sent as (R83). -/
def byteWord (pl : BytePlacement) (b : Byte) : Word :=
  match pl with
  | .high => b.setWidth 16 <<< 8
  | .low => b.setWidth 16

/-- The command byte of a write command (R72). -/
def writeCode (p : Params) : WriteCmd → Byte
  | .wreg => p.cWreg
  | .wvar => p.cWvar

/-- The address field of an outbound frame: one byte for a register command, two bytes, high first, for a variable
command (R73). -/
def addrBytes : WriteCmd → Word → List Byte
  | .wreg, a => [lo8 a]
  | .wvar, a => wordBytes a

/-- Byte `off` of an inbound frame, for an offset in its address or payload (4 and up), read from the frame's `body`, the
bytes after CMD (R79, R80). -/
def fieldAt (body : List Byte) (off : Nat) : Byte := body.getD (off - 4) 0

/-- The frame's LEN field as a number: CMD and the bytes after it (R70). -/
def bodyLen (body : List Byte) : Nat := 1 + body.length

/-- The literal two-byte "OK" payload with LEN = 3 (R78, R140). -/
def isAckBody (body : List Byte) : Bool :=
  decide (bodyLen body = 3 ∧ fieldAt body 4 = ok0 ∧ fieldAt body 5 = ok1)

/-- The words of a read-variable response: `word(rx_buf[7 + 2k], rx_buf[8 + 2k])`, k = 0..W-1, W = ceil2(BL) (R85). -/
def rvarWords (body : List Byte) : List Word :=
  (List.range (ceil2 (fieldAt body 6).toNat)).map fun k => word (fieldAt body (7 + 2 * k)) (fieldAt body (8 + 2 * k))

/-- The entries of a read-register response: `zext_16(rx_buf[6 + i])`, i = 0..BL-1 (R86). -/
def rregWords (body : List Byte) : List Word :=
  (List.range (fieldAt body 5).toNat).map fun i => (fieldAt body (6 + i)).setWidth 16

/-- A read-variable response is well-formed when LEN covers the address, the byte length and the W words (R79, R142). -/
def rvarFits (body : List Byte) : Bool :=
  decide (4 ≤ bodyLen body ∧ 4 + 2 * ceil2 (fieldAt body 6).toNat ≤ bodyLen body)

/-- A read-register response is well-formed when LEN covers the address, the byte length and the BL bytes (R80, R143). -/
def rregFits (body : List Byte) : Bool :=
  decide (3 ≤ bodyLen body ∧ 3 + (fieldAt body 5).toNat ≤ bodyLen body)

/-- `FP_CMD = C_RVAR` (R10, R88, D8). -/
def fpCmd (p : Params) : Byte := p.cRvar

/-- The known literal prefixes of R88, the longest first: P4, P3, P2 (R133 takes the longest present). -/
def literalPrefixes (p : Params) : List (List Byte) :=
  [[p.h1, p.h2, p.fpLen, fpCmd p], [p.h1, p.h2, p.fpLen], [p.h1, p.h2]]

/-- `fast_prefix()` on the bytes the channel holds: the longest literal prefix wholly present at their head (R133). -/
def fastPrefix (p : Params) (chan : List Byte) : Option (List Byte) :=
  (literalPrefixes p).find? fun pre => decide (pre.length ≤ chan.length ∧ chan.take pre.length = pre)

/-- Whether a payload is a text. -/
def isText : Payload → Bool
  | .text _ => true
  | _ => false

/-- Whether a payload is a text longer than the frame budget allows (R71, R110). -/
def isLongText : Payload → Bool
  | .text t => decide (t.length > txTextMax)
  | _ => false

/-- `illegal(req)` (R110), the four cases in the order the rule checks them. Which of them applies is not recorded. -/
def illegalRequest (q : SendRequest) : Bool :=
  if q.cmd = .rreg ∨ q.cmd = .rvar then true
  else if q.cmd = .wreg ∧ q.addr > 0xFF then true
  else if q.cmd = .wreg ∧ isText q.payload then true
  else isLongText q.payload

/-- The least duration, in microseconds, of a SEND that emits a frame of `m` bytes (R205). Timing only: a SEND is one
atomic step, and no operation reads this. -/
def sendMinMicros (p : Params) (m : Nat) : Nat := (m - 1) * p.txGapUs

end Sys2Proof.Machine
end

