-- ==== Sys2Proof/Machine/State.lean ====
section
/-! DEFINITION. Machine/State.lean: the state of the block (spec 10_state.md R20 to R29), the state of the channel beside it
(R35), the host's pending inputs (60_exceptions.md R183), and the state right after RESET (70_reset_and_hazards.md R190).
Plain data throughout. -/

namespace Sys2Proof.Machine

/-- A byte-indexed memory, as address and byte pairs in one canonical form (`Memory.wf`). It holds `rx_buf` (R21). -/
abbrev Memory := List Host.Cell

/-- What an unlisted index reads as: 0x00, the reset value of every byte of `rx_buf` and what CLEAR leaves (R21, R145;
DEDUCED, log entry 3). -/
def unlisted : Byte := 0x00

/-- The canonical form: indices strictly rising, no entry equal to what an unlisted index reads as, so that equal contents are
equal data (DESIGN CHOICE, log entry 12). -/
abbrev Memory.wf (m : Memory) : Prop :=
  m.Pairwise (fun c d => c.1 < d.1) ∧ ∀ c ∈ m, c.2 ≠ unlisted

/-- `rx_result` (R24). -/
inductive RxResult where
  | nothing
  | received
deriving DecidableEq, Repr

/-- `rx_status` (R25). Codes 9 to 15 are never written, so the type leaves them out (93_implementation_defined.md U9;
DEDUCED, log entry 9). -/
inductive RxStatus where
  | idle
  | accum
  | noise
  | dropHeader
  | dropLength
  | ack
  | dropFields
  | dropCommand
  | msg
deriving DecidableEq, Repr

/-- `tx_status` (R29). -/
inductive TxStatus where
  | idle
  | sent
  | noop
  | reject
deriving DecidableEq, Repr

/-- `msg.kind` (R26). Code 3 is never written (U9). -/
inductive MsgKind where
  | none
  | rvarResp
  | rregResp
deriving DecidableEq, Repr

/-- The message register `msg` (R26). -/
structure Msg where
  kind : MsgKind
  addr : Word
  bytelen : Byte
  data : Vector Word msgCap
deriving DecidableEq, Repr

/-- `msg` zeroed, its kind NONE: its reset value, and what every POLL begins with (R26, R148). -/
def Msg.zero : Msg where
  kind := .none
  addr := 0
  bytelen := 0
  data := Vector.replicate msgCap 0

/-- The staging record `tx_stage` (R28). -/
structure TxStage where
  head0 : Byte
  head1 : Byte
  len : Byte
  cmd : Byte
  addr : Word
  payload : Vector Byte txTextMax
deriving DecidableEq, Repr

/-- `tx_stage` all zero: its reset value, and its value between operations (R28, R112). -/
def TxStage.zero : TxStage where
  head0 := 0
  head1 := 0
  len := 0
  cmd := 0
  addr := 0
  payload := Vector.replicate txTextMax 0

/-- What the outside does between two operations (R183): the controlling agent asks for an operation, or the link delivers
bytes to the channel's receive side. DESIGN CHOICE (log entry 8). -/
inductive HostInput where
  | request (r : Request)
  | deliver (bytes : List Byte)
deriving DecidableEq, Repr

/-- The state of the machine. -/
structure State where
  /-- The parameters of this block (R10), which nothing writes (R11). The model's own field. -/
  cfg : Params
  /-- `rx_buf[0..RX_CAP-1]` (R21). -/
  rxBuf : Memory
  /-- `rx_off`, the accumulation offset (R22). -/
  rxOff : Nat
  /-- `rx_result` (R24). -/
  rxResult : RxResult
  /-- `rx_status` (R25). -/
  rxStatus : RxStatus
  /-- `msg` (R26). -/
  msg : Msg
  /-- `tx_stage` (R28). -/
  txStage : TxStage
  /-- `tx_status` (R29). -/
  txStatus : TxStatus
  /-- The channel's inbound queue, oldest byte first (R35, R180): environment state. -/
  rxChan : List Byte
  /-- `tx_seq`, every byte emitted so far in order (R35): environment state. -/
  txSeq : List Byte
  /-- The host's inputs still to come, oldest first (R183): the model's own field, environment state. -/
  inbox : List HostInput
deriving DecidableEq, Repr

/-- Why the machine stops. -/
inductive Fault where
  /-- Raised by STEP (R135) on a write to `rx_buf[index]` with `index >= RX_CAP`, a place the spec says does not exist
  (R21). Safe: R23 (d) rules it out between operations, so only a state no run reaches raises it (DESIGN
  CHOICE, log entry 4). -/
  | rxBufIndex (index : Nat)
deriving DecidableEq, Repr

/-- Why the machine has no meaning for an instruction. -/
inductive Refusal where
  /-- Raised by an arm of `exec` whose instruction has no meaning yet; no arm answers it. Safe: the run stops. -/
  | notModelled (mnemonic : String)
deriving DecidableEq, Repr

/-- The step result of STEP (R131). -/
inductive StepResult where
  /-- The byte was kept, no frame ended. -/
  | pending
  /-- The byte or the frame was discarded, or an acknowledgement was swallowed. -/
  | nothing
  /-- A message was written into `msg`. -/
  | message
deriving DecidableEq, Repr

/-- The block with parameters `p` right after RESET (R190), its channel empty, nothing emitted and no input pending
(DESIGN CHOICE for the environment's part, log entry 2). -/
def State.resetWith (p : Params) : State where
  cfg := p
  rxBuf := []
  rxOff := 0
  rxResult := .nothing
  rxStatus := .idle
  msg := Msg.zero
  txStage := TxStage.zero
  txStatus := .idle
  rxChan := []
  txSeq := []
  inbox := []

/-- The machine right after reset, with the REF parameters (DESIGN CHOICE, log entry 1). -/
def State.reset : State := State.resetWith Params.ref

end Sys2Proof.Machine
end

