-- ==== Sys2Proof/Machine/Ops.lean ====
section
/-! DEFINITION. Machine/Ops.lean: the named operations over the receive buffer, the channel, the message register and the
staging record. The block takes no exception and returns from none: it has no trap mechanism (spec 60_exceptions.md R170,
R173), and every error is resolved by `State.drop` or `State.reject` (00_scope.md R16, R171). -/

namespace Sys2Proof.Machine

/-! ### Memory -/

/-- The byte at an index. -/
def Memory.read : Memory → Nat → Byte
  | [], _ => unlisted
  | c :: m, a => if c.1 = a then c.2 else Memory.read m a

/-- The entry of a byte at an index, none for the value an unlisted index reads as. -/
def Memory.entry (a : Nat) (b : Byte) : Memory := if b = unlisted then [] else [(a, b)]

/-- Write the byte at an index, keeping the canonical form. -/
def Memory.write : Memory → Nat → Byte → Memory
  | [], a, b => Memory.entry a b
  | c :: m, a, b =>
    if a < c.1 then Memory.entry a b ++ c :: m
    else if a = c.1 then Memory.entry a b ++ m
    else c :: Memory.write m a b

/-! ### The receive buffer (R21, R135, R145) -/

/-- `rx_buf[i]` (R14). -/
def State.rxRead (s : State) (i : Nat) : Byte := s.rxBuf.read i

/-- `rx_buf[i], ..., rx_buf[i + n - 1]`. -/
def State.rxBytes (s : State) (i n : Nat) : List Byte := (List.range n).map fun k => s.rxRead (i + k)

/-- `rx_buf[rx_off] <- b; rx_off <- rx_off + 1` (R135). There is no byte at `RX_CAP` or beyond (R21). -/
def State.rxAppend (s : State) (b : Byte) : Except Fault State :=
  if s.rxOff < s.cfg.rxCap then .ok { s with rxBuf := s.rxBuf.write s.rxOff b, rxOff := s.rxOff + 1 }
  else .error (.rxBufIndex s.rxOff)

/-- CLEAR (R145): every byte of `rx_buf` to 0x00 and `rx_off <- 0`; `msg` is not touched. -/
def State.clearRx (s : State) : State := { s with rxBuf := [], rxOff := 0 }

/-- CLEAR, then `rx_status <- code`: how every arm of DECODE and every drop ends (R139, R145). -/
def State.endFrame (s : State) (code : RxStatus) : State := { s.clearRx with rxStatus := code }

/-- `drop(code)` (R16, R145, R173). -/
def State.drop (s : State) (code : RxStatus) : State × StepResult := (s.endFrame code, .nothing)

/-! ### The message register (R26, R148) -/

/-- The first entries of an array replaced by `xs`, the others kept: what a loop `x[k] <- xs[k]` from k = 0 leaves. -/
def overlay {α : Type} {n : Nat} (xs : List α) (v : Vector α n) : Vector α n :=
  ⟨(xs.take n ++ v.toList.drop xs.length).toArray, by simp; omega⟩

/-- `msg <- zero; msg.kind <- NONE; rx_result <- NOTHING`: how every POLL begins (R130, R148). -/
def State.beginPoll (s : State) : State := { s with msg := Msg.zero, rxResult := .nothing }

/-- Write a decoded message: its kind, address and byte length, and the entries of `msg.data` from 0 (R142, R143). -/
def State.writeMsg (s : State) (kind : MsgKind) (addr : Word) (bytelen : Byte) (entries : List Word) : State :=
  { s with msg := ⟨kind, addr, bytelen, overlay entries s.msg.data⟩ }

/-! ### The channel (R15, R180) -/

/-- `ChanAvail()`. -/
def State.chanAvail (s : State) : Nat := s.rxChan.length

/-- `ChanPeek(k)`. -/
def State.chanPeek (s : State) (k : Nat) : List Byte := s.rxChan.take k

/-- `ChanTake()`: the next byte, consumed; none where the channel holds none. -/
def State.chanTake (s : State) : Option (Byte × State) :=
  match s.rxChan with
  | [] => none
  | b :: rest => some (b, { s with rxChan := rest })

/-- `Emit(b)`: append `b` to `tx_seq`. -/
def State.emit (s : State) (b : Byte) : State := { s with txSeq := s.txSeq ++ [b] }

/-- `for j in 0 .. |f| - 1: Emit(f[j])` (R101). The pacing wait between two bytes is timing only (R111, R205;
DESIGN CHOICE, log entry 7). -/
def State.emitAll (s : State) : List Byte → State
  | [] => s
  | b :: f => (s.emit b).emitAll f

/-! ### The staging record and the transmit skeleton (R101, R112) -/

/-- `build(req)`: the staging record of a write command with these payload bytes; LEN counts CMD, the address and the
payload (R70, R101, R116). The register form's `addr` is zero-extended (DEDUCED, log entry 11). -/
def buildStage (p : Params) (k : WriteCmd) (addr : Word) (payload : List Byte) : TxStage where
  head0 := p.h1
  head1 := p.h2
  len := BitVec.ofNat 8 (1 + (addrBytes k addr).length + payload.length)
  cmd := writeCode p k
  addr := addr
  payload := overlay payload (Vector.replicate txTextMax 0)

/-- The frame a staging record holds: header, LEN, CMD, the address field of the command, and payload bytes up to
`3 + LEN` in all (R101). -/
def stageFrame (k : WriteCmd) (st : TxStage) : List Byte :=
  [st.head0, st.head1, st.len, st.cmd] ++ addrBytes k st.addr
    ++ st.payload.toList.take (st.len.toNat - 1 - (addrBytes k st.addr).length)

/-- The end of a SEND: `tx_stage <- all zero; tx_status <- SENT` (R101, R112). -/
def State.endSend (s : State) : State := { s with txStage := TxStage.zero, txStatus := .sent }

/-- Put a built frame in the staging record. -/
def State.stage (s : State) (st : TxStage) : State := { s with txStage := st }

/-- The common skeleton of a SEND that emits a frame (R101): build, emit, clear. -/
def State.transmit (s : State) (k : WriteCmd) (addr : Word) (payload : List Byte) : State :=
  let staged := s.stage (buildStage s.cfg k addr payload)
  (staged.emitAll (stageFrame k staged.txStage)).endSend

/-- `tx_status <- NOOP; return` (R101, R109). -/
def State.noop (s : State) : State := { s with txStatus := .noop }

/-- `reject()`: `tx_status <- REJECT`, nothing emitted (R16, R101, R110). -/
def State.reject (s : State) : State := { s with txStatus := .reject }

end Sys2Proof.Machine
end

