-- ==== Sys2Proof/Machine/Flags.lean ====
section
/-! DEFINITION. Machine/Flags.lean: the block's only flags, `rx_result`, `rx_status` and `tx_status` (spec 10_state.md R31):
their codes (R20, R25, R26, R29), and how a step result becomes `rx_result` (41_receive.md R131, R146). -/

namespace Sys2Proof.Machine

/-- The code of `rx_result` (R20). -/
def rxResultCode : RxResult → BitVec 1
  | .nothing => 0
  | .received => 1

/-- The code of `rx_status` (R25). -/
def rxStatusCode : RxStatus → BitVec 4
  | .idle => 0
  | .accum => 1
  | .noise => 2
  | .dropHeader => 3
  | .dropLength => 4
  | .ack => 5
  | .dropFields => 6
  | .dropCommand => 7
  | .msg => 8

/-- The code of `msg.kind` (R20, R26). -/
def msgKindCode : MsgKind → BitVec 2
  | .none => 0
  | .rvarResp => 1
  | .rregResp => 2

/-- The code of `tx_status` (R20, R29). -/
def txStatusCode : TxStatus → BitVec 2
  | .idle => 0
  | .sent => 1
  | .noop => 2
  | .reject => 3

/-- `rx_status <- code`. -/
def State.setRxStatus (s : State) (code : RxStatus) : State := { s with rxStatus := code }

/-- `if STEP(b) = MESSAGE: rx_result <- RECEIVED` (R130, R146). -/
def conclude (r : State × StepResult) : State :=
  match r.2 with
  | .message => { r.1 with rxResult := .received }
  | .pending => r.1
  | .nothing => r.1

end Sys2Proof.Machine
end

