-- ==== Sys2Proof/Machine/Inbound.lean ====
section
/-! DEFINITION. Machine/Inbound.lean: DECODE, the arms of a complete inbound frame (spec 41_receive.md R139 to R144), and the
meaning of each inbound row: its arm, with the step result turned into `rx_result` as the POLL that runs it does (DESIGN
CHOICE, log entry 5). An arm's `body` is the frame's bytes after CMD, so `L = bodyLen body` and `rx_buf[i] = fieldAt body i` for i >= 4. -/

namespace Sys2Proof.Machine

open Host (Outcome)

/-- The acknowledgement arm (R140): the frame is swallowed. -/
def State.decodeAck (s : State) : State × StepResult := (s.endFrame .ack, .nothing)

/-- The arm of a write-command frame that is no acknowledgement (R141). -/
def State.decodeNotAck (s : State) : State × StepResult := s.drop .dropFields

/-- The read-variable response arm (R142). -/
def State.decodeRvar (s : State) (body : List Byte) : State × StepResult :=
  if rvarFits body then
    ((s.writeMsg .rvarResp (word (fieldAt body 4) (fieldAt body 5)) (fieldAt body 6) (rvarWords body)).endFrame .msg, .message)
  else s.drop .dropFields

/-- The read-register response arm (R143). -/
def State.decodeRreg (s : State) (body : List Byte) : State × StepResult :=
  if rregFits body then
    ((s.writeMsg .rregResp ((fieldAt body 4).setWidth 16) (fieldAt body 5) (rregWords body)).endFrame .msg, .message)
  else s.drop .dropFields

/-- The arm of an unknown command byte (R144). -/
def State.decodeUnknown (s : State) : State × StepResult := s.drop .dropCommand

/-- DECODE (R139): one arm, by the command byte, tried in the order of R94. -/
def State.decodeArm (s : State) (cmd : Byte) (body : List Byte) : State × StepResult :=
  if cmd = s.cfg.cWreg ∨ cmd = s.cfg.cWvar then
    (if isAckBody body then s.decodeAck else s.decodeNotAck)
  else if cmd = s.cfg.cRvar then s.decodeRvar body
  else if cmd = s.cfg.cRreg then s.decodeRreg body
  else s.decodeUnknown

/-- DECODE on the complete frame in `rx_buf` (R138, R139). -/
def State.decodeBuffer (s : State) : State × StepResult :=
  s.decodeArm (s.rxRead 3) (s.rxBytes 4 ((s.rxRead 2).toNat - 1))

/-- RX.ACK.WREG (R140). -/
def execRxAckWreg (s : State) : Outcome State Fault Refusal :=
  .next (conclude s.decodeAck)

/-- RX.ACK.WVAR (R140). -/
def execRxAckWvar (s : State) : Outcome State Fault Refusal :=
  .next (conclude s.decodeAck)

/-- RX.WRITE.NOTACK (R141). -/
def execRxWriteNotAck (_cmd : WriteCmd) (_body : List Byte) (s : State) : Outcome State Fault Refusal :=
  .next (conclude s.decodeNotAck)

/-- RX.RVAR.RESP (R142). -/
def execRxRvarResp (body : List Byte) (s : State) : Outcome State Fault Refusal :=
  .next (conclude (s.decodeRvar body))

/-- RX.RREG.RESP (R143). -/
def execRxRregResp (body : List Byte) (s : State) : Outcome State Fault Refusal :=
  .next (conclude (s.decodeRreg body))

/-- RX.UNKNOWN (R144). -/
def execRxUnknown (_cmd : Byte) (_body : List Byte) (s : State) : Outcome State Fault Refusal :=
  .next (conclude s.decodeUnknown)

end Sys2Proof.Machine
end

