-- ==== Sys2Proof/Machine/Poll.lean ====
section
/-! DEFINITION. Machine/Poll.lean: STEP, the accumulation of one byte (spec 41_receive.md R134 to R138), and POLL, on the slow
and on the fast path (R130, R132, R133). -/

namespace Sys2Proof.Machine

open Host (Outcome)

/-- The 3-byte checkpoint: the code of the drop it makes, none where the frame goes on. The header check comes first
(R136, R137, R172). -/
def State.checkpoint (s : State) : Option RxStatus :=
  if s.rxRead 0 ≠ s.cfg.h1 ∨ s.rxRead 1 ≠ s.cfg.h2 then some .dropHeader
  else if (s.rxRead 2).toNat = 0 ∨ 3 + (s.rxRead 2).toNat > s.cfg.rxCap then some .dropLength
  else none

/-- What STEP does once the byte is stored (R135): checkpoint at 3 bytes, DECODE at `3 + LEN`, else ACCUM. -/
def State.afterStore (s : State) : State × StepResult :=
  if s.rxOff = 3 then
    match s.checkpoint with
    | some code => s.drop code
    | none => (s.setRxStatus .accum, .pending)
  else if s.rxOff ≥ 4 ∧ s.rxOff = 3 + (s.rxRead 2).toNat then s.decodeBuffer
  else (s.setRxStatus .accum, .pending)

/-- STEP(b) (R134, R135): a byte at an empty buffer that is not `H1` is noise, any other is stored. -/
def State.stepByte (s : State) (b : Byte) : Except Fault (State × StepResult) :=
  if s.rxOff = 0 ∧ b ≠ s.cfg.h1 then .ok (s.setRxStatus .noise, .nothing)
  else match s.rxAppend b with
    | .error f => .error f
    | .ok stored => .ok stored.afterStore

/-- `fast_prefix()` (R133). -/
def State.fastPre (s : State) : Option (List Byte) := fastPrefix s.cfg s.rxChan

/-- How many bytes a POLL of a channel that holds some takes: a whole literal prefix on the fast path, else one
(R130, R132, R133). -/
def State.pollTake (s : State) : Nat :=
  if s.cfg.fastpath = true ∧ s.rxOff = 0 then
    match s.fastPre with
    | some pre => pre.length
    | none => 1
  else 1

/-- `repeat n times: b <- ChanTake(); if STEP(b) = MESSAGE: rx_result <- RECEIVED` (R130). -/
def State.takeBytes (s : State) : Nat → Outcome State Fault Refusal
  | 0 => .next s
  | n + 1 =>
    match s.chanTake with
    | none => .next s
    | some (b, taken) =>
      match taken.stepByte b with
      | .error f => .fault f
      | .ok r => (conclude r).takeBytes n

/-- POLL (R130). -/
def execPoll (s : State) : Outcome State Fault Refusal :=
  if s.chanAvail = 0 then .next (s.beginPoll.setRxStatus .idle)
  else s.beginPoll.takeBytes s.beginPoll.pollTake

end Sys2Proof.Machine
end

