-- ==== Sys2Proof/Machine/Refused.lean ====
section
/-! DEFINITION. Machine/Refused.lean: a SEND request the codec refuses (spec 40_transmit.md R110). -/

namespace Sys2Proof.Machine

open Host (Outcome)

/-- SEND (refused) (R110): `tx_status <- REJECT`, no byte emitted; which case applied is not recorded. -/
def execSendRefused (_q : SendRequest) (s : State) : Outcome State Fault Refusal :=
  .next s.reject

end Sys2Proof.Machine
end

