-- ==== Sys2Proof/Machine/Reset.lean ====
section
/-! DEFINITION. Machine/Reset.lean: RESET (spec 70_reset_and_hazards.md R190, R191). -/

namespace Sys2Proof.Machine

open Host (Outcome)

/-- RESET (R190): every element of the block's state to its reset value. The channel's inbound queue, `tx_seq` and the
host's inputs are environment state and keep their contents (R191). -/
def execReset (s : State) : Outcome State Fault Refusal :=
  .next { s.clearRx with
    rxResult := .nothing
    rxStatus := .idle
    msg := Msg.zero
    txStage := TxStage.zero
    txStatus := .idle }

end Sys2Proof.Machine
end

