-- ==== Sys2Proof/Machine/WriteRegister.lean ====
section
/-! DEFINITION. Machine/WriteRegister.lean: the write-register forms of SEND (spec 40_transmit.md R103 to R105). A register
address above 0xFF is no operand of these rows: such a request is refused (R110). -/

namespace Sys2Proof.Machine

open Host (Outcome)

/-- SEND.WREG.NONE (R103). -/
def execSendWregNone (addr : Byte) (s : State) : Outcome State Fault Refusal :=
  .next (s.transmit .wreg (addr.setWidth 16) [])

/-- SEND.WREG.BYTE (R104). -/
def execSendWregByte (addr b : Byte) (s : State) : Outcome State Fault Refusal :=
  .next (s.transmit .wreg (addr.setWidth 16) [b])

/-- SEND.WREG.INT (R105): the low 8 bits, never the long encoding. -/
def execSendWregInt (addr : Byte) (v : IntPayload) (s : State) : Outcome State Fault Refusal :=
  .next (s.transmit .wreg (addr.setWidth 16) [intRegByte v])

end Sys2Proof.Machine
end

