-- ==== Sys2Proof/Machine/WriteVariable.lean ====
section
/-! DEFINITION. Machine/WriteVariable.lean: the write-variable forms of SEND (spec 40_transmit.md R106 to R109). -/

namespace Sys2Proof.Machine

open Host (Outcome)

/-- SEND.WVAR.NONE (R106). -/
def execSendWvarNone (addr : Word) (s : State) : Outcome State Fault Refusal :=
  .next (s.transmit .wvar addr [])

/-- SEND.WVAR.BYTE (R107). -/
def execSendWvarByte (addr : Word) (b : Byte) (s : State) : Outcome State Fault Refusal :=
  .next (s.transmit .wvar addr (wordBytes (byteWord s.cfg.byteInWord b)))

/-- SEND.WVAR.INT (short) (R108). -/
def execSendWvarIntShort (addr : Word) (v : IntPayload) (s : State) : Outcome State Fault Refusal :=
  .next (s.transmit .wvar addr (wordBytes (intShortWord v)))

/-- SEND.WVAR.INT (long) (R108). -/
def execSendWvarIntLong (addr : Word) (v : IntPayload) (s : State) : Outcome State Fault Refusal :=
  .next (s.transmit .wvar addr (longBytes (intLongValue v)))

/-- SEND.WVAR.TEXT (R109): the text bytes unchanged. The two tests before it are the rule's own; a decoded instruction of
this row passes both. -/
def execSendWvarText (addr : Word) (t : List Byte) (s : State) : Outcome State Fault Refusal :=
  if t.length > txTextMax then .next s.reject
  else if t.length = 0 then .next s.noop
  else .next (s.transmit .wvar addr t)

/-- SEND.WVAR.TEXT (empty) (R109): a no-op, nothing is sent. -/
def execSendWvarTextEmpty (_addr : Word) (s : State) : Outcome State Fault Refusal :=
  .next s.noop

end Sys2Proof.Machine
end

