-- ==== Sys2Proof/Machine/Dispatch.lean ====
section
/-! DEFINITION. Machine/Dispatch.lean: one arm per row of spec/opcode_table.json. -/

namespace Sys2Proof.Machine

def exec (i : Instr) (s : State) : Host.Outcome State Fault Refusal :=
  match i with
  | .sendWregNone addr => Sys2Proof.Machine.execSendWregNone addr s
  | .sendWregByte addr b => Sys2Proof.Machine.execSendWregByte addr b s
  | .sendWregInt addr v => Sys2Proof.Machine.execSendWregInt addr v s
  | .sendWvarNone addr => Sys2Proof.Machine.execSendWvarNone addr s
  | .sendWvarByte addr b => Sys2Proof.Machine.execSendWvarByte addr b s
  | .sendWvarIntShort addr v => Sys2Proof.Machine.execSendWvarIntShort addr v s
  | .sendWvarIntLong addr v => Sys2Proof.Machine.execSendWvarIntLong addr v s
  | .sendWvarText addr t => Sys2Proof.Machine.execSendWvarText addr t s
  | .sendWvarTextEmpty addr => Sys2Proof.Machine.execSendWvarTextEmpty addr s
  | .sendRefused q => Sys2Proof.Machine.execSendRefused q s
  | .rxAckWreg => Sys2Proof.Machine.execRxAckWreg s
  | .rxAckWvar => Sys2Proof.Machine.execRxAckWvar s
  | .rxWriteNotAck cmd body => Sys2Proof.Machine.execRxWriteNotAck cmd body s
  | .rxRvarResp body => Sys2Proof.Machine.execRxRvarResp body s
  | .rxRregResp body => Sys2Proof.Machine.execRxRregResp body s
  | .rxUnknown cmd body => Sys2Proof.Machine.execRxUnknown cmd body s
  | .poll => Sys2Proof.Machine.execPoll s
  | .reset => Sys2Proof.Machine.execReset s

end Sys2Proof.Machine
end

