-- ==== Sys2Proof/WellFormed.lean ====
section
/-! DEFINITION. WellFormed.lean: which terms of `Instr` stand for a request or a frame that spec/opcode_table.json's row
admits (30_encoding.md R93; the conditions of each row's "match").
`exec` is total on the others too (DESIGN CHOICE, log entry 10). -/

namespace Sys2Proof

/-- A `body` (the bytes after CMD) that fits a one-byte LEN and the receive buffer (R71, R137). -/
abbrev bodyFits (p : Params) (body : List Byte) : Prop :=
  Machine.bodyLen body ≤ 255 ∧ 3 + Machine.bodyLen body ≤ p.rxCap

/-- The conditions of the opcode table's row on an instruction's operands, for a block with parameters `p`. -/
abbrev Instr.wf (p : Params) : Instr → Prop
  | .sendWregNone _ => True
  | .sendWregByte _ _ => True
  | .sendWregInt _ _ => True
  | .sendWvarNone _ => True
  | .sendWvarByte _ _ => True
  | .sendWvarIntShort _ v => Machine.intValue v ≤ 65535
  | .sendWvarIntLong _ v => Machine.intValue v > 65535
  | .sendWvarText _ t => 1 ≤ t.length ∧ t.length ≤ txTextMax
  | .sendWvarTextEmpty _ => True
  | .sendRefused q => Machine.illegalRequest q = true
  | .rxAckWreg => True
  | .rxAckWvar => True
  | .rxWriteNotAck _ body => bodyFits p body ∧ Machine.isAckBody body = false
  | .rxRvarResp body => bodyFits p body
  | .rxRregResp body => bodyFits p body
  | .rxUnknown cmd body => bodyFits p body ∧ cmd ∉ [p.cWreg, p.cRreg, p.cWvar, p.cRvar]
  | .poll => True
  | .reset => True

/-- The rows that are inbound frames (direction "in" of the opcode table). -/
def Instr.isInbound : Instr → Bool
  | .rxAckWreg | .rxAckWvar | .rxWriteNotAck _ _ | .rxRvarResp _ | .rxRregResp _ | .rxUnknown _ _ => true
  | .sendWregNone _ | .sendWregByte _ _ | .sendWregInt _ _ | .sendWvarNone _ | .sendWvarByte _ _
  | .sendWvarIntShort _ _ | .sendWvarIntLong _ _ | .sendWvarText _ _ | .sendWvarTextEmpty _ | .sendRefused _
  | .poll | .reset => false

end Sys2Proof
end

