-- ==== Sys2Proof/Decode.lean ====
section
/-! DEFINITION. Decode.lean: the decoder (which row of spec/opcode_table.json a request or a complete inbound frame is,
30_encoding.md R93, R94) and after it the encoder, written from the frame formats of R70 to R80. -/

namespace Sys2Proof

open Sys2Proof.Machine

/-- Why a byte sequence is no complete inbound frame. Safe: a refused sequence runs no instruction. -/
inductive DecodeError where
  /-- The first two bytes are not `H1 H2` (R136). -/
  | badHeader
  /-- LEN is 0, or the frame is longer than the receive buffer (R137). -/
  | badLength
  /-- The bytes are not exactly `3 + LEN` many (R87). -/
  | notComplete
deriving DecidableEq, Repr

/-- Which row a SEND request is (R93, R100 to R110). Refusal is decided first (R172). -/
def decodeSend (q : SendRequest) : Instr :=
  if illegalRequest q then .sendRefused q
  else match q.cmd, q.payload with
    | .wreg, .none => .sendWregNone (lo8 q.addr)
    | .wreg, .byte b => .sendWregByte (lo8 q.addr) b
    | .wreg, .int v => .sendWregInt (lo8 q.addr) v
    | .wvar, .none => .sendWvarNone q.addr
    | .wvar, .byte b => .sendWvarByte q.addr b
    | .wvar, .int v => if isLong v then .sendWvarIntLong q.addr v else .sendWvarIntShort q.addr v
    | .wvar, .text [] => .sendWvarTextEmpty q.addr
    | .wvar, .text (c :: t) => .sendWvarText q.addr (c :: t)
    | .wreg, .text _ => .sendRefused q
    | .rreg, _ => .sendRefused q
    | .rvar, _ => .sendRefused q

/-- The instruction of an operation request (R93). -/
def decodeRequest : Request → Instr
  | .reset => .reset
  | .poll => .poll
  | .send q => decodeSend q

/-- Which inbound row a complete frame is, by its command byte and the bytes after it (R94, in the rule's order). -/
def classify (p : Params) (cmd : Byte) (body : List Byte) : Instr :=
  if cmd = p.cWreg then (if isAckBody body then .rxAckWreg else .rxWriteNotAck .wreg body)
  else if cmd = p.cWvar then (if isAckBody body then .rxAckWvar else .rxWriteNotAck .wvar body)
  else if cmd = p.cRvar then .rxRvarResp body
  else if cmd = p.cRreg then .rxRregResp body
  else .rxUnknown cmd body

/-- The inbound instruction of a byte sequence: header, length and completeness are checked in the order of R172, then the
command byte selects the row. -/
def decodeFrame (p : Params) : List Byte → Except DecodeError Instr
  | b0 :: b1 :: len :: rest =>
    if ¬(b0 = p.h1 ∧ b1 = p.h2) then .error .badHeader
    else if len.toNat = 0 ∨ 3 + len.toNat > p.rxCap then .error .badLength
    else match rest with
      | [] => .error .notComplete
      | cmd :: body => if bodyLen body = len.toNat then .ok (classify p cmd body) else .error .notComplete
  | _ => .error .notComplete

/-- The decoder, total on every request and on any bytes. -/
def decode (p : Params) : Source → Except DecodeError Instr
  | .request r => .ok (decodeRequest r)
  | .frame bytes => decodeFrame p bytes

/-- The bytes of a frame (R70): `[H1, H2, LEN, CMD]` and the bytes after CMD. -/
def frameBytes (p : Params) (cmd : Byte) (body : List Byte) : List Byte :=
  [p.h1, p.h2, BitVec.ofNat 8 (bodyLen body), cmd] ++ body

/-- The encoder: the request or the inbound frame an instruction is read from. -/
def encode (p : Params) : Instr → Source
  | .sendWregNone a => .request (.send ⟨.wreg, a.setWidth 16, .none⟩)
  | .sendWregByte a b => .request (.send ⟨.wreg, a.setWidth 16, .byte b⟩)
  | .sendWregInt a v => .request (.send ⟨.wreg, a.setWidth 16, .int v⟩)
  | .sendWvarNone a => .request (.send ⟨.wvar, a, .none⟩)
  | .sendWvarByte a b => .request (.send ⟨.wvar, a, .byte b⟩)
  | .sendWvarIntShort a v => .request (.send ⟨.wvar, a, .int v⟩)
  | .sendWvarIntLong a v => .request (.send ⟨.wvar, a, .int v⟩)
  | .sendWvarText a t => .request (.send ⟨.wvar, a, .text t⟩)
  | .sendWvarTextEmpty a => .request (.send ⟨.wvar, a, .text []⟩)
  | .sendRefused q => .request (.send q)
  | .rxAckWreg => .frame (frameBytes p p.cWreg [ok0, ok1])
  | .rxAckWvar => .frame (frameBytes p p.cWvar [ok0, ok1])
  | .rxWriteNotAck k body => .frame (frameBytes p (writeCode p k) body)
  | .rxRvarResp body => .frame (frameBytes p p.cRvar body)
  | .rxRregResp body => .frame (frameBytes p p.cRreg body)
  | .rxUnknown cmd body => .frame (frameBytes p cmd body)
  | .poll => .request .poll
  | .reset => .request .reset

/-- The frame a SEND row puts on the wire (the "encoding" column of spec/opcode_table.json; R75 to R77), none for a row that
emits nothing or is not a SEND. -/
def outboundFrame (p : Params) : Instr → Option (List Byte)
  | .sendWregNone a => some (frameBytes p p.cWreg [a])
  | .sendWregByte a b => some (frameBytes p p.cWreg [a, b])
  | .sendWregInt a v => some (frameBytes p p.cWreg [a, intRegByte v])
  | .sendWvarNone a => some (frameBytes p p.cWvar (wordBytes a))
  | .sendWvarByte a b => some (frameBytes p p.cWvar (wordBytes a ++ wordBytes (byteWord p.byteInWord b)))
  | .sendWvarIntShort a v => some (frameBytes p p.cWvar (wordBytes a ++ wordBytes (intShortWord v)))
  | .sendWvarIntLong a v => some (frameBytes p p.cWvar (wordBytes a ++ longBytes (intLongValue v)))
  | .sendWvarText a t => some (frameBytes p p.cWvar (wordBytes a ++ t))
  | .sendWvarTextEmpty _ => none
  | .sendRefused _ => none
  | .rxAckWreg | .rxAckWvar | .rxWriteNotAck _ _ | .rxRvarResp _ | .rxRregResp _ | .rxUnknown _ _ => none
  | .poll | .reset => none

/-- The first `maxFrame` bytes of an instruction whose bits are `w`, the first byte in bits 7..0; the bits above `nbits`
are 0. -/
def tableBytes (nbits w : Nat) : List Byte :=
  (List.range maxFrame).map fun i => BitVec.ofNat 8 ((w % 2 ^ nbits) >>> (8 * i))

/-- The inbound frame in those bytes: `3 + LEN` of them (R87). -/
def tableFrame (nbits w : Nat) : List Byte :=
  (tableBytes nbits w).take (3 + ((tableBytes nbits w).getD 2 0).toNat)

/-- The decoder on the bits of an inbound frame, under the REF parameters. The opcode table gives operation requests no
bits (DESIGN CHOICE, log entry 6), so only frames are read here. -/
def decodeTableWord (nbits w : Nat) : Option Instr :=
  match decodeFrame Params.ref (tableFrame nbits w) with
  | .ok i => some i
  | .error _ => none

end Sys2Proof
end

