-- ==== Sys2Proof/Machine/HostPort.lean ====
section
/-! DEFINITION. Machine/HostPort.lean: how the block meets its host (spec 60_exceptions.md R183): the next input of the host,
one at a time and in order (20_memory.md R56, R59), and how a frame is put where the next step runs it. -/

namespace Sys2Proof.Machine

/-- What one step of the machine is about to do. -/
inductive Fetched where
  /-- The host asks for nothing: the block keeps all its state (R182). -/
  | idle
  /-- The link delivered bytes: `after` is the state with them in the channel. -/
  | delivered (after : State)
  /-- The host asked for `r`: `after` is the state with that request taken. -/
  | run (r : Request) (after : State)
deriving DecidableEq, Repr

/-- Take the host's next input. Delivered bytes join the channel's queue in order (R59, R180). -/
def State.fetch (s : State) : Fetched :=
  match s.inbox with
  | [] => .idle
  | .deliver bytes :: rest => .delivered { s with rxChan := s.rxChan ++ bytes, inbox := rest }
  | .request r :: rest => .run r { s with inbox := rest }

/-- Store bytes in `rx_buf` from an index on. -/
def storeFrom (m : Memory) (i : Nat) : List Byte → Memory
  | [] => m
  | b :: bytes => storeFrom (m.write i b) (i + 1) bytes

/-- A frame with its last byte still to come: the other bytes in `rx_buf`, the last at the head of the channel, and a POLL
the host's next input, so that the next step completes the frame and runs it (DESIGN CHOICE, log entry 6). -/
def State.placeFrame (s : State) (frame : List Byte) : State :=
  { s with
    rxBuf := storeFrom [] 0 frame.dropLast
    rxOff := frame.length - 1
    rxChan := frame.drop (frame.length - 1) ++ s.rxChan
    inbox := .request .poll :: s.inbox }

end Sys2Proof.Machine
end

