-- ==== Sys2Proof/Machine/Step.lean ====
section
/-! DEFINITION. Machine/Step.lean: one step of the machine: the host's next input, and, where it is a request, the
instruction it decodes to. -/

namespace Sys2Proof.Machine

/-- One step (spec 60_exceptions.md R183): an operation runs to completion (20_memory.md R56), a delivery only fills the
channel, and with no input the block is idle and keeps all its state (R182). -/
def step (s : State) : Host.Outcome State Fault Refusal :=
  match s.fetch with
  | .idle => .next s
  | .delivered after => .next after
  | .run r after => exec (decodeRequest r) after

/-- `s` with the inbound frame whose bits are `w` placed so that the next step runs it (`State.placeFrame`). -/
def State.withFetchWord (s : State) (nbits w : Nat) : State := s.placeFrame (tableFrame nbits w)

end Sys2Proof.Machine
end

