-- ==== Sys2Proof/Safety.lean ====
section
/-! DEFINITION. Safety.lean: the terms the statements are made in: the invariants of the state between operations, runs of
POLLs, and which states agree on the receive or the transmit half. -/

namespace Sys2Proof.Machine

open Host (Outcome)

/-! ### Invariants -/

/-- The receive buffer's canonical form (DESIGN CHOICE, log entry 12), and R23 (e): a byte at or beyond `rx_off` is 0x00. -/
def State.BufferInv (s : State) : Prop :=
  s.rxBuf.wf ∧ ∀ i, s.rxOff ≤ i → s.rxRead i = 0x00

/-- R23 (a) to (c): what a partial frame in the buffer already satisfies. -/
def State.FrameInv (s : State) : Prop :=
  (1 ≤ s.rxOff → s.rxRead 0 = s.cfg.h1) ∧
  (3 ≤ s.rxOff →
    s.rxRead 1 = s.cfg.h2 ∧ 1 ≤ (s.rxRead 2).toNat ∧ 3 + (s.rxRead 2).toNat ≤ s.cfg.rxCap ∧
      s.rxOff < 3 + (s.rxRead 2).toNat)

/-- R27, and what R26 says of a register that holds no message. -/
def State.MsgInv (s : State) : Prop :=
  (s.msg.kind ≠ .none ↔ s.rxResult = .received) ∧
  (s.rxResult = .received → s.rxStatus = .msg) ∧
  (s.rxResult = .nothing → s.msg = Msg.zero)

/-- The invariant of the state between operations: the parameters are legal (R10), R23, R27, R28. -/
def State.Inv (s : State) : Prop :=
  s.cfg.Legal ∧ s.BufferInv ∧ s.FrameInv ∧ s.MsgInv ∧ s.txStage = TxStage.zero

/-! ### Runs of POLLs -/

/-- `n` POLLs, stopping at the first fault or refusal. -/
def pollTimes (s : State) : Nat → Outcome State Fault Refusal
  | 0 => .next s
  | n + 1 =>
    match exec .poll s with
    | .next s' => pollTimes s' n
    | .fault f => .fault f
    | .refused r => .refused r

/-- The requests of a list, run one after another, stopping at the first fault or refusal. -/
def runRequests (s : State) : List Request → Outcome State Fault Refusal
  | [] => .next s
  | r :: rs =>
    match exec (decodeRequest r) s with
    | .next s' => runRequests s' rs
    | .fault f => .fault f
    | .refused r => .refused r

/-- The message a POLL that ended in this state produced, if any: `rx_result` is RECEIVED (R146). -/
def State.produced (s : State) : List Msg :=
  match s.rxResult with
  | .received => [s.msg]
  | .nothing => []

/-- POLL until the channel is empty, at most `n` times: the messages produced, in order, and the last state. None where a
POLL gives no next state. -/
def drain (s : State) : Nat → Option (List Msg × State)
  | 0 => some ([], s)
  | n + 1 =>
    if s.chanAvail = 0 then some ([], s)
    else match exec .poll s with
      | .next s' => (drain s' n).map fun r => (s'.produced ++ r.1, r.2)
      | .fault _ => none
      | .refused _ => none

/-- The same state in a block whose `FASTPATH` parameter is `b`. -/
def State.withFastpath (s : State) (b : Bool) : State := { s with cfg := { s.cfg with fastpath := b } }

/-! ### The two halves of the block (R61) -/

/-- Equal parameters, receive state and inbound queue. -/
def SameRx (s t : State) : Prop :=
  s.cfg = t.cfg ∧ s.rxBuf = t.rxBuf ∧ s.rxOff = t.rxOff ∧ s.rxResult = t.rxResult ∧ s.rxStatus = t.rxStatus ∧
    s.msg = t.msg ∧ s.rxChan = t.rxChan

/-- Equal parameters, transmit state and emitted sequence. -/
def SameTx (s t : State) : Prop :=
  s.cfg = t.cfg ∧ s.txStage = t.txStage ∧ s.txStatus = t.txStatus ∧ s.txSeq = t.txSeq

/-- The same state with other values in the two informational status registers. -/
def State.withStatus (s : State) (r : RxStatus) (x : TxStatus) : State := { s with rxStatus := r, txStatus := x }

/-- The state a POLL leaves to its STEPs when it has taken the channel's bytes up to `rest`: `msg` zeroed, `rx_result`
NOTHING (R130). -/
def State.polled (s : State) (rest : List Byte) : State :=
  { s with msg := Msg.zero, rxResult := .nothing, rxChan := rest }

end Sys2Proof.Machine
end

