-- ==== Sys2Proof/Certificates/Slice0/Obligations.lean ====
section
/-! DEFINITION. Certificates/Slice0/Obligations.lean: the statements for the provers, each from the numbered rules of spec/. -/

open Sys2Proof Sys2Proof.Machine

/-! ### Encoding (30_encoding.md) -/

/-- The decoder reads every well-formed instruction back from its encoding, with every operand (R75 to R80, R93). -/
def Obligations.DecodeInvertsEncode : Prop :=
  ∀ (p : Params) (i : Instr), p.Legal → i.wf p → decode p (encode p i) = .ok i

/-- Whatever the decoder accepts is a well-formed instruction that encodes to exactly the request or the bytes it was read
from: no bit of them is dropped (R93). -/
def Obligations.EncodeInvertsDecode : Prop :=
  ∀ (p : Params) (src : Source) (i : Instr), decode p src = .ok i → i.wf p ∧ encode p i = src

/-- A few frames and requests of spec/95_test_vectors.md, under REF, decode to the rows the vectors name. -/
def Obligations.VectorFramesDecode : Prop :=
  decodeFrame Params.ref [0x5A, 0xA5, 0x03, 0x80, 0x4F, 0x4B] = .ok .rxAckWreg ∧
  decodeFrame Params.ref [0x5A, 0xA5, 0x03, 0x82, 0x4F, 0x4B] = .ok .rxAckWvar ∧
  decodeFrame Params.ref [0x5A, 0xA5, 0x03, 0x82, 0x4F, 0x4C] = .ok (.rxWriteNotAck .wvar [0x4F, 0x4C]) ∧
  decodeFrame Params.ref [0x5A, 0xA5, 0x06, 0x83, 0x10, 0x00, 0x01, 0x00, 0x2A]
    = .ok (.rxRvarResp [0x10, 0x00, 0x01, 0x00, 0x2A]) ∧
  decodeFrame Params.ref [0x5A, 0xA5, 0x05, 0x81, 0x03, 0x02, 0x00, 0x05] = .ok (.rxRregResp [0x03, 0x02, 0x00, 0x05]) ∧
  decodeFrame Params.ref [0x5A, 0xA5, 0x03, 0x84, 0x00, 0x00] = .ok (.rxUnknown 0x84 [0x00, 0x00]) ∧
  decodeFrame Params.ref [0x5A, 0x00, 0x06] = .error .badHeader ∧
  decodeFrame Params.ref [0x5A, 0xA5, 0x00] = .error .badLength ∧
  decodeRequest (.send ⟨.wvar, 0x1000, .int (.i32 false 0x12345678)⟩) = .sendWvarIntLong 0x1000 (.i32 false 0x12345678) ∧
  decodeRequest (.send ⟨.wreg, 0x03, .text []⟩) = .sendRefused ⟨.wreg, 0x03, .text []⟩

/-- Which inbound row a complete frame is depends on its command byte alone (and, for a write command, on the literal "OK"
with LEN = 3): at most one arm matches, so the order of the tests changes nothing (R94, R140, R141). -/
def Obligations.CommandByteSelectsOneRow : Prop :=
  ∀ (p : Params) (cmd : Byte) (body : List Byte), p.Legal →
    (classify p cmd body = .rxAckWreg ↔ cmd = p.cWreg ∧ body = [0x4F, 0x4B]) ∧
    (classify p cmd body = .rxWriteNotAck .wreg body ↔ cmd = p.cWreg ∧ body ≠ [0x4F, 0x4B]) ∧
    (classify p cmd body = .rxAckWvar ↔ cmd = p.cWvar ∧ body = [0x4F, 0x4B]) ∧
    (classify p cmd body = .rxWriteNotAck .wvar body ↔ cmd = p.cWvar ∧ body ≠ [0x4F, 0x4B]) ∧
    (classify p cmd body = .rxRvarResp body ↔ cmd = p.cRvar) ∧
    (classify p cmd body = .rxRregResp body ↔ cmd = p.cRreg) ∧
    (classify p cmd body = .rxUnknown cmd body ↔
      cmd ≠ p.cWreg ∧ cmd ≠ p.cRreg ∧ cmd ≠ p.cWvar ∧ cmd ≠ p.cRvar)

/-- A frame the decoder accepts is `3 + LEN` bytes long, at least 4 and no more than the buffer holds; a well-formed
read-variable response carries at most 125 words, a well-formed read-register response at most 252 bytes (R71, R87). -/
def Obligations.AcceptedFrameLengths : Prop :=
  ∀ (p : Params) (f : List Byte) (i : Instr), p.Legal → decodeFrame p f = .ok i →
    4 ≤ f.length ∧ f.length ≤ p.rxCap ∧ (∃ len, f[2]? = some len ∧ f.length = 3 + len.toNat) ∧
    (∀ body, i = .rxRvarResp body → rvarFits body = true → (rvarWords body).length ≤ 125) ∧
    (∀ body, i = .rxRregResp body → rregFits body = true → (rregWords body).length ≤ 252)

/-! ### Transmit (40_transmit.md) -/

/-- Every SEND row that has a frame completes: it appends exactly that frame to `tx_seq`, leaves the staging record zero,
sets SENT and changes nothing else (R101, R102, R112). -/
def Obligations.SendPutsItsFrameOnTheWire : Prop :=
  ∀ (s : State) (i : Instr) (f : List Byte), i.wf s.cfg → outboundFrame s.cfg i = some f →
    exec i s = .next { s with txSeq := s.txSeq ++ f, txStage := TxStage.zero, txStatus := .sent }

/-- Write-register requests (R103 to R105): the frames of the three forms, REJECT above address 0xFF, and 2 the smallest LEN
the codec ever sends. -/
def Obligations.WriteRegisterRequests : Prop :=
  ∀ (s : State) (a b : Byte) (v : IntPayload) (addr : Word),
    (decodeRequest (.send ⟨.wreg, a.setWidth 16, .none⟩) = .sendWregNone a ∧
      exec (.sendWregNone a) s = .next { s with
        txSeq := s.txSeq ++ [s.cfg.h1, s.cfg.h2, 0x02, s.cfg.cWreg, a], txStage := TxStage.zero, txStatus := .sent }) ∧
    (decodeRequest (.send ⟨.wreg, a.setWidth 16, .byte b⟩) = .sendWregByte a b ∧
      exec (.sendWregByte a b) s = .next { s with
        txSeq := s.txSeq ++ [s.cfg.h1, s.cfg.h2, 0x03, s.cfg.cWreg, a, b], txStage := TxStage.zero, txStatus := .sent }) ∧
    (decodeRequest (.send ⟨.wreg, a.setWidth 16, .int v⟩) = .sendWregInt a v ∧
      exec (.sendWregInt a v) s = .next { s with
        txSeq := s.txSeq ++ [s.cfg.h1, s.cfg.h2, 0x03, s.cfg.cWreg, a, BitVec.ofInt 8 (intValue v % 2 ^ 32)],
        txStage := TxStage.zero, txStatus := .sent }) ∧
    (addr.toNat > 0xFF → ∀ pl : Payload,
      exec (decodeRequest (.send ⟨.wreg, addr, pl⟩)) s = .next { s with txStatus := .reject }) ∧
    (∀ (i : Instr) (f : List Byte), i.wf s.cfg → outboundFrame s.cfg i = some f → 2 ≤ (f.getD 2 0).toNat)

/-- Write-variable requests with no payload or a byte (R106, R107): the frames, under either placement of the byte. -/
def Obligations.WriteVariableNoneAndByte : Prop :=
  ∀ (s : State) (addr : Word) (b : Byte),
    (decodeRequest (.send ⟨.wvar, addr, .none⟩) = .sendWvarNone addr ∧
      exec (.sendWvarNone addr) s = .next { s with
        txSeq := s.txSeq ++ [s.cfg.h1, s.cfg.h2, 0x03, s.cfg.cWvar, hi8 addr, lo8 addr],
        txStage := TxStage.zero, txStatus := .sent }) ∧
    decodeRequest (.send ⟨.wvar, addr, .byte b⟩) = .sendWvarByte addr b ∧
    (s.cfg.byteInWord = .high →
      exec (.sendWvarByte addr b) s = .next { s with
        txSeq := s.txSeq ++ [s.cfg.h1, s.cfg.h2, 0x05, s.cfg.cWvar, hi8 addr, lo8 addr, b, 0x00],
        txStage := TxStage.zero, txStatus := .sent }) ∧
    (s.cfg.byteInWord = .low →
      exec (.sendWvarByte addr b) s = .next { s with
        txSeq := s.txSeq ++ [s.cfg.h1, s.cfg.h2, 0x05, s.cfg.cWvar, hi8 addr, lo8 addr, 0x00, b],
        txStage := TxStage.zero, txStatus := .sent })

/-- Write-variable integers (R108, R52): long exactly above 65535 with the most significant byte first, else one word, the
low 16 bits; a 16-bit integer is never long. -/
def Obligations.WriteVariableIntegers : Prop :=
  ∀ (s : State) (addr : Word) (v : IntPayload) (n : Int),
    n = (match v with
      | .i16 true x => x.toInt
      | .i16 false x => (x.toNat : Int)
      | .i32 true x => x.toInt
      | .i32 false x => (x.toNat : Int)) →
    (n > 65535 → ∀ u : DWord, (u.toNat : Int) = n % 2 ^ 32 →
      decodeRequest (.send ⟨.wvar, addr, .int v⟩) = .sendWvarIntLong addr v ∧
      exec (.sendWvarIntLong addr v) s = .next { s with
        txSeq := s.txSeq ++ [s.cfg.h1, s.cfg.h2, 0x07, s.cfg.cWvar, hi8 addr, lo8 addr,
          u.extractLsb' 24 8, u.extractLsb' 16 8, u.extractLsb' 8 8, u.extractLsb' 0 8],
        txStage := TxStage.zero, txStatus := .sent }) ∧
    (n ≤ 65535 → ∀ w : Word, (w.toNat : Int) = n % 2 ^ 16 →
      decodeRequest (.send ⟨.wvar, addr, .int v⟩) = .sendWvarIntShort addr v ∧
      exec (.sendWvarIntShort addr v) s = .next { s with
        txSeq := s.txSeq ++ [s.cfg.h1, s.cfg.h2, 0x05, s.cfg.cWvar, hi8 addr, lo8 addr, hi8 w, lo8 w],
        txStage := TxStage.zero, txStatus := .sent }) ∧
    (∀ sgn x, v = .i16 sgn x → n ≤ 65535)

/-- Write-variable text (R109): empty is a no-op, 1 to 252 bytes are sent unchanged, more is refused. -/
def Obligations.WriteVariableText : Prop :=
  ∀ (s : State) (addr : Word) (t : List Byte),
    (t.length = 0 →
      decodeRequest (.send ⟨.wvar, addr, .text t⟩) = .sendWvarTextEmpty addr ∧
      exec (.sendWvarTextEmpty addr) s = .next { s with txStatus := .noop }) ∧
    (1 ≤ t.length → t.length ≤ 252 →
      decodeRequest (.send ⟨.wvar, addr, .text t⟩) = .sendWvarText addr t ∧
      exec (.sendWvarText addr t) s = .next { s with
        txSeq := s.txSeq ++ ([s.cfg.h1, s.cfg.h2, BitVec.ofNat 8 (3 + t.length), s.cfg.cWvar, hi8 addr, lo8 addr] ++ t),
        txStage := TxStage.zero, txStatus := .sent }) ∧
    (t.length > 252 →
      decodeRequest (.send ⟨.wvar, addr, .text t⟩) = .sendRefused ⟨.wvar, addr, .text t⟩ ∧
      exec (.sendRefused ⟨.wvar, addr, .text t⟩) s = .next { s with txStatus := .reject })

/-- The codec refuses exactly the requests of R110's four cases: such a SEND ends with REJECT and changes nothing else, and
every other request completes without REJECT. -/
def Obligations.RefusedRequestsExactly : Prop :=
  ∀ (s : State) (q : SendRequest) (illegal : Prop),
    (illegal ↔
      (q.cmd = .rreg ∨ q.cmd = .rvar) ∨
      (q.cmd = .wreg ∧ q.addr.toNat > 0xFF) ∨
      (q.cmd = .wreg ∧ ∃ t, q.payload = .text t) ∨
      (∃ t, q.payload = .text t ∧ t.length > 252)) →
    (illegal →
      decodeRequest (.send q) = .sendRefused q ∧ exec (.sendRefused q) s = .next { s with txStatus := .reject }) ∧
    (¬ illegal → ∃ t, exec (decodeRequest (.send q)) s = .next t ∧ t.txStatus ≠ .reject)

/-- Every SEND completes, and emits at most one frame: one that begins `H1 H2`, whose third byte is its length less 3 and
whose fourth is a write command's byte (R116). From a zero staging record nothing else changes but `tx_status`. -/
def Obligations.EverySendEmitsOneHeadedFrameOrNothing : Prop :=
  ∀ (s : State) (q : SendRequest), s.txStage = TxStage.zero →
    exec (decodeRequest (.send q)) s = .next { s with txStatus := .reject } ∨
    exec (decodeRequest (.send q)) s = .next { s with txStatus := .noop } ∨
    ∃ f : List Byte,
      exec (decodeRequest (.send q)) s = .next { s with txSeq := s.txSeq ++ f, txStatus := .sent } ∧
      f.length ≤ 258 ∧ f[0]? = some s.cfg.h1 ∧ f[1]? = some s.cfg.h2 ∧
      (∃ len, f[2]? = some len ∧ len.toNat + 3 = f.length) ∧
      (f[3]? = some s.cfg.cWreg ∨ f[3]? = some s.cfg.cWvar)

/-! ### Receive: the arms of DECODE (41_receive.md, section 3) -/

/-- The arms that end a frame without a message (R140, R141, R144), run as instructions (the model's choice, log entry 5): the
buffer is cleared, the code recorded, and nothing else changes. -/
def Obligations.FramesEndedWithoutMessage : Prop :=
  ∀ (s : State) (k : WriteCmd) (cmd : Byte) (body : List Byte),
    exec .rxAckWreg s = .next { s with rxBuf := [], rxOff := 0, rxStatus := .ack } ∧
    exec .rxAckWvar s = .next { s with rxBuf := [], rxOff := 0, rxStatus := .ack } ∧
    exec (.rxWriteNotAck k body) s = .next { s with rxBuf := [], rxOff := 0, rxStatus := .dropFields } ∧
    exec (.rxUnknown cmd body) s = .next { s with rxBuf := [], rxOff := 0, rxStatus := .dropCommand }

/-- The read-variable response (R142, R79, R85), for every frame `f` of that row: a LEN too short for its fields is dropped,
any other gives the message, entry by entry. That `exec` of the row sets `rx_result` and leaves the other entries to the POLL
that runs it is the model's choice (log entry 5). -/
def Obligations.ReadVariableResponse : Prop :=
  ∀ (s : State) (body f : List Byte) (L W : Nat),
    f = frameBytes s.cfg s.cfg.cRvar body → L = 1 + body.length → W = ((f.getD 6 0).toNat + 1) / 2 →
    (L < 4 ∨ L < 4 + 2 * W →
      exec (.rxRvarResp body) s = .next { s with rxBuf := [], rxOff := 0, rxStatus := .dropFields }) ∧
    (4 ≤ L → 4 + 2 * W ≤ L → ∃ m : Msg,
      exec (.rxRvarResp body) s =
        .next { s with rxBuf := [], rxOff := 0, rxStatus := .msg, rxResult := .received, msg := m } ∧
      m.kind = .rvarResp ∧ m.addr = word (f.getD 4 0) (f.getD 5 0) ∧ m.bytelen = f.getD 6 0 ∧
      ∀ (k : Nat) (hk : k < 252),
        m.data[k] = if k < W then word (f.getD (7 + 2 * k) 0) (f.getD (8 + 2 * k) 0) else s.msg.data[k])

/-- The read-register response (R143, R80, R86), for every frame `f` of that row; `exec` of the row as in log entry 5. -/
def Obligations.ReadRegisterResponse : Prop :=
  ∀ (s : State) (body f : List Byte) (L BL : Nat),
    f = frameBytes s.cfg s.cfg.cRreg body → L = 1 + body.length → BL = (f.getD 5 0).toNat →
    (L < 3 ∨ L < 3 + BL →
      exec (.rxRregResp body) s = .next { s with rxBuf := [], rxOff := 0, rxStatus := .dropFields }) ∧
    (3 ≤ L → 3 + BL ≤ L → ∃ m : Msg,
      exec (.rxRregResp body) s =
        .next { s with rxBuf := [], rxOff := 0, rxStatus := .msg, rxResult := .received, msg := m } ∧
      m.kind = .rregResp ∧ m.addr = (f.getD 4 0).setWidth 16 ∧ m.bytelen = f.getD 5 0 ∧
      ∀ (k : Nat) (hk : k < 252),
        m.data[k] = if k < BL then (f.getD (6 + k) 0).setWidth 16 else s.msg.data[k])

/-! ### Receive: POLL and STEP (41_receive.md, sections 1 and 2) -/

/-- A POLL of an empty channel (R130): IDLE, `msg` zero, NOTHING; the buffer and its offset keep their contents. -/
def Obligations.PollOfEmptyChannelIsIdle : Prop :=
  ∀ s : State, s.rxChan = [] →
    exec .poll s = .next { s with msg := Msg.zero, rxResult := .nothing, rxStatus := .idle }

/-- A byte that is not `H1`, polled at an empty buffer, is discarded as noise, with or without the fast path (R134). -/
def Obligations.NoiseIsDiscarded : Prop :=
  ∀ (s : State) (b : Byte) (rest : List Byte), s.rxOff = 0 → s.rxChan = b :: rest → b ≠ s.cfg.h1 →
    exec .poll s = .next { s.polled rest with rxStatus := .noise }

/-- Off the fast path, a POLL whose byte starts or continues a frame without ending it and without reaching the checkpoint
stores it (R132, R135): one byte at `rx_off`, every other byte of the buffer as before. -/
def Obligations.PollStoresOneByte : Prop :=
  ∀ (s : State) (b : Byte) (rest : List Byte), s.Inv → s.rxChan = b :: rest →
    (s.cfg.fastpath = false ∨ s.rxOff ≠ 0 ∨ fastPrefix s.cfg s.rxChan = none) →
    (s.rxOff = 0 → b = s.cfg.h1) → s.rxOff ≠ 2 → (3 ≤ s.rxOff → s.rxOff + 1 ≠ 3 + (s.rxRead 2).toNat) →
    ∃ m : Memory,
      exec .poll s = .next { s.polled rest with rxBuf := m, rxOff := s.rxOff + 1, rxStatus := .accum } ∧
      ∀ i, m.read i = if i = s.rxOff then b else s.rxRead i

/-- The 3-byte checkpoint (R136, R137): a wrong second byte drops the header, a LEN that is 0 or does not fit drops the
length, and any other LEN is stored. -/
def Obligations.ThreeByteCheckpoint : Prop :=
  ∀ (s : State) (b : Byte) (rest : List Byte), s.Inv → s.rxOff = 2 → s.rxChan = b :: rest →
    (s.rxRead 1 ≠ s.cfg.h2 →
      exec .poll s = .next { s.polled rest with rxBuf := [], rxOff := 0, rxStatus := .dropHeader }) ∧
    (s.rxRead 1 = s.cfg.h2 → b.toNat = 0 ∨ 3 + b.toNat > s.cfg.rxCap →
      exec .poll s = .next { s.polled rest with rxBuf := [], rxOff := 0, rxStatus := .dropLength }) ∧
    (s.rxRead 1 = s.cfg.h2 → 1 ≤ b.toNat → 3 + b.toNat ≤ s.cfg.rxCap →
      ∃ m : Memory,
        exec .poll s = .next { s.polled rest with rxBuf := m, rxOff := 3, rxStatus := .accum } ∧
        ∀ i, m.read i = if i = 2 then b else s.rxRead i)

/-- The POLL that takes a frame's last byte runs the inbound instruction the complete frame decodes to (R138, R139). -/
def Obligations.PollRunsTheDecodedFrame : Prop :=
  ∀ (s : State) (b : Byte) (rest : List Byte), s.Inv → 3 ≤ s.rxOff → s.rxOff + 1 = 3 + (s.rxRead 2).toNat →
    s.rxChan = b :: rest →
    ∃ i : Instr, i.isInbound = true ∧ decode s.cfg (.frame (s.rxBytes 0 s.rxOff ++ [b])) = .ok i ∧
      exec .poll s = exec i (s.polled rest)

/-- A POLL whose byte completes a write-command frame or one of an unknown command (R140, R141, R144): the literal "OK" with
LEN = 3 is swallowed, any other write-command frame and any unknown command is dropped. -/
def Obligations.PollSwallowsOrDropsTheFrame : Prop :=
  ∀ (s : State) (b : Byte) (rest f : List Byte) (L : Nat) (cmd : Byte) (ack : Prop), s.Inv → 3 ≤ s.rxOff →
    s.rxChan = b :: rest → L = (s.rxRead 2).toNat → s.rxOff + 1 = 3 + L → f = s.rxBytes 0 s.rxOff ++ [b] →
    cmd = f.getD 3 0 →
    (ack ↔ (cmd = s.cfg.cWreg ∨ cmd = s.cfg.cWvar) ∧ L = 3 ∧ f.getD 4 0 = ok0 ∧ f.getD 5 0 = ok1) →
    (ack → exec .poll s = .next { s.polled rest with rxBuf := [], rxOff := 0, rxStatus := .ack }) ∧
    ((cmd = s.cfg.cWreg ∨ cmd = s.cfg.cWvar) → ¬ ack →
      exec .poll s = .next { s.polled rest with rxBuf := [], rxOff := 0, rxStatus := .dropFields }) ∧
    (cmd ≠ s.cfg.cWreg → cmd ≠ s.cfg.cRreg → cmd ≠ s.cfg.cWvar → cmd ≠ s.cfg.cRvar →
      exec .poll s = .next { s.polled rest with rxBuf := [], rxOff := 0, rxStatus := .dropCommand })

/-- A POLL whose byte completes a read-variable response (R142): dropped when LEN does not cover its fields, else the message,
its entries beyond the words of the frame zero. -/
def Obligations.PollDecodesVariableResponse : Prop :=
  ∀ (s : State) (b : Byte) (rest f : List Byte) (L W : Nat), s.Inv → 3 ≤ s.rxOff → s.rxChan = b :: rest →
    L = (s.rxRead 2).toNat → s.rxOff + 1 = 3 + L → f = s.rxBytes 0 s.rxOff ++ [b] → f.getD 3 0 = s.cfg.cRvar →
    W = ((f.getD 6 0).toNat + 1) / 2 →
    (L < 4 ∨ L < 4 + 2 * W →
      exec .poll s = .next { s.polled rest with rxBuf := [], rxOff := 0, rxStatus := .dropFields }) ∧
    (4 ≤ L → 4 + 2 * W ≤ L → ∃ m : Msg,
      exec .poll s =
        .next { s.polled rest with rxBuf := [], rxOff := 0, rxStatus := .msg, rxResult := .received, msg := m } ∧
      m.kind = .rvarResp ∧ m.addr = word (f.getD 4 0) (f.getD 5 0) ∧ m.bytelen = f.getD 6 0 ∧
      ∀ (k : Nat) (hk : k < 252),
        m.data[k] = if k < W then word (f.getD (7 + 2 * k) 0) (f.getD (8 + 2 * k) 0) else 0)

/-- A POLL whose byte completes a read-register response (R143). -/
def Obligations.PollDecodesRegisterResponse : Prop :=
  ∀ (s : State) (b : Byte) (rest f : List Byte) (L BL : Nat), s.Inv → 3 ≤ s.rxOff → s.rxChan = b :: rest →
    L = (s.rxRead 2).toNat → s.rxOff + 1 = 3 + L → f = s.rxBytes 0 s.rxOff ++ [b] → f.getD 3 0 = s.cfg.cRreg →
    BL = (f.getD 5 0).toNat →
    (L < 3 ∨ L < 3 + BL →
      exec .poll s = .next { s.polled rest with rxBuf := [], rxOff := 0, rxStatus := .dropFields }) ∧
    (3 ≤ L → 3 + BL ≤ L → ∃ m : Msg,
      exec .poll s =
        .next { s.polled rest with rxBuf := [], rxOff := 0, rxStatus := .msg, rxResult := .received, msg := m } ∧
      m.kind = .rregResp ∧ m.addr = (f.getD 4 0).setWidth 16 ∧ m.bytelen = f.getD 5 0 ∧
      ∀ (k : Nat) (hk : k < 252), m.data[k] = if k < BL then (f.getD (6 + k) 0).setWidth 16 else 0)

/-- Once the header check has passed, exactly LEN further bytes are consumed, whatever they are, before the frame they
complete is decoded and run (R138, R197). -/
def Obligations.LenBytesAreConsumedThenDecoded : Prop :=
  ∀ (s : State) (data rest : List Byte), s.Inv → s.rxOff = 3 → s.rxChan = data ++ rest →
    data.length = (s.rxRead 2).toNat →
    (∀ n, n < data.length → ∃ t, pollTimes s n = .next t ∧ t.rxOff = 3 + n ∧ t.rxChan = data.drop n ++ rest) ∧
    ∃ i : Instr, i.isInbound = true ∧ decode s.cfg (.frame (s.rxBytes 0 3 ++ data)) = .ok i ∧
      pollTimes s data.length = exec i (s.polled rest)

/-- The fast path (R133): `fast_prefix()` is the longest literal prefix wholly present, and a POLL that finds one takes it in
one operation with the outcome of as many slow-path POLLs. -/
def Obligations.FastPathTakesTheLongestPrefix : Prop :=
  ∀ (s : State) (P4 P3 P2 : List Byte), s.Inv →
    P4 = [s.cfg.h1, s.cfg.h2, s.cfg.fpLen, s.cfg.cRvar] → P3 = [s.cfg.h1, s.cfg.h2, s.cfg.fpLen] →
    P2 = [s.cfg.h1, s.cfg.h2] →
    (P4 <+: s.rxChan → fastPrefix s.cfg s.rxChan = some P4) ∧
    (¬ P4 <+: s.rxChan → P3 <+: s.rxChan → fastPrefix s.cfg s.rxChan = some P3) ∧
    (¬ P3 <+: s.rxChan → P2 <+: s.rxChan → fastPrefix s.cfg s.rxChan = some P2) ∧
    (¬ P2 <+: s.rxChan → fastPrefix s.cfg s.rxChan = none) ∧
    (s.cfg.fastpath = true → s.rxOff = 0 → ∀ P, fastPrefix s.cfg s.rxChan = some P →
      ∃ t : State, exec .poll s = .next t ∧ s.rxChan = P ++ t.rxChan ∧
        pollTimes (s.withFastpath false) P.length = .next (t.withFastpath false))

/-- From a state that meets the invariant a POLL always completes; it takes at most 4 bytes, at most one on the slow path, at
least one where there is one, and no POLL that takes more than one byte produces a message (R130, R132, R147). -/
def Obligations.PollCompletesTakingAtMostFourBytes : Prop :=
  ∀ s : State, s.Inv →
    ∃ (t : State) (taken : List Byte), exec .poll s = .next t ∧ s.rxChan = taken ++ t.rxChan ∧
      taken.length ≤ 4 ∧ (s.cfg.fastpath = false ∨ s.rxOff ≠ 0 → taken.length ≤ 1) ∧
      (s.rxChan ≠ [] → taken ≠ []) ∧ (2 ≤ taken.length → t.rxResult = .nothing)

/-- Fast path equals slow path (R149): polled until the channel is empty, the block produces the same messages and ends in
the same state whether FASTPATH is true or false. -/
def Obligations.FastPathEqualsSlowPath : Prop :=
  ∀ s : State, s.Inv →
    ∃ (msgs : List Msg) (t : State),
      drain (s.withFastpath true) s.rxChan.length = some (msgs, t.withFastpath true) ∧
      drain (s.withFastpath false) s.rxChan.length = some (msgs, t.withFastpath false) ∧
      t.rxChan = []

/-- Framing robustness (R150): a message was decoded from a buffer that begins `H1 H2`; a byte at the head of the buffer that
is not `H1` is discarded as noise; a stream with no `H1` byte produces no message. -/
def Obligations.FramingRobustness : Prop :=
  ∀ s : State, s.Inv →
    (∀ t, exec .poll s = .next t → t.rxResult = .received →
      s.rxRead 0 = s.cfg.h1 ∧ s.rxRead 1 = s.cfg.h2 ∧ 3 ≤ s.rxOff ∧
      ∃ (b : Byte) (body : List Byte), s.rxChan = b :: t.rxChan ∧
        (decodeFrame s.cfg (s.rxBytes 0 s.rxOff ++ [b]) = .ok (.rxRvarResp body) ∨
          decodeFrame s.cfg (s.rxBytes 0 s.rxOff ++ [b]) = .ok (.rxRregResp body))) ∧
    (s.rxOff = 0 → ∀ (b : Byte) (rest : List Byte), s.rxChan = b :: rest → b ≠ s.cfg.h1 →
      ∃ t, exec .poll s = .next t ∧ t.rxChan = rest ∧ t.rxOff = 0 ∧ t.rxStatus = .noise ∧ t.rxResult = .nothing) ∧
    (s.rxOff = 0 → s.cfg.h1 ∉ s.rxChan →
      ∃ t, drain s s.rxChan.length = some ([], t) ∧ t.rxChan = [] ∧ t.rxOff = 0)

/-- Bytes consumed per frame (R153): an inbound frame at the head of the channel, the buffer empty, is consumed by exactly
`3 + L` slow-path POLLs, or `3 + L - |P| + 1` where the fast path matches the prefix P; the last of them leaves what the
frame's instruction leaves, and before it bytes of the frame are still in the channel. -/
def Obligations.FrameIsConsumedByItsPolls : Prop :=
  ∀ (s : State) (i : Instr) (f rest : List Byte), s.Inv → s.rxOff = 0 → i.isInbound = true → i.wf s.cfg →
    encode s.cfg i = .frame f → s.rxChan = f ++ rest →
    (s.cfg.fastpath = false →
      pollTimes s f.length = exec i (s.polled rest) ∧
      ∀ n, n < f.length → ∃ t, pollTimes s n = .next t ∧ rest.length < t.rxChan.length) ∧
    (s.cfg.fastpath = true → ∃ P, fastPrefix s.cfg s.rxChan = some P ∧
      pollTimes s (f.length - P.length + 1) = exec i (s.polled rest) ∧
      ∀ n, n < f.length - P.length + 1 → ∃ t, pollTimes s n = .next t ∧ rest.length < t.rxChan.length)

/-- Implicit resynchronization (R151): after any drop, acknowledgement or message the buffer is empty; from an empty buffer
the bytes before the next `H1` are each noise, and that `H1` starts a new frame. -/
def Obligations.ImplicitResynchronization : Prop :=
  (∀ s t : State, s.Inv → exec .poll s = .next t → t.rxStatus ≠ .idle → t.rxStatus ≠ .accum →
    t.rxBuf = [] ∧ t.rxOff = 0) ∧
  (∀ (s : State) (noise rest : List Byte), s.Inv → s.rxOff = 0 → s.cfg.h1 ∉ noise →
    s.rxChan = noise ++ s.cfg.h1 :: rest →
    ∃ t : State, pollTimes s noise.length = .next t ∧ t.rxChan = s.cfg.h1 :: rest ∧ t.rxOff = 0 ∧
      (noise ≠ [] → t.rxStatus = .noise) ∧
      ∃ u : State, t.stepByte s.cfg.h1 = .ok (u, .pending) ∧ u.rxOff = 1 ∧ u.rxRead 0 = s.cfg.h1 ∧ u.rxStatus = .accum)

/-- No timeout (R152): through any number of SENDs and of POLLs that find the channel empty, in any order, a partial frame
stays in the buffer, and the bytes that come next are received as if those operations had not happened. -/
def Obligations.PartialFrameWaits : Prop :=
  ∀ (s : State) (rs : List Request), s.rxChan = [] → (∀ r ∈ rs, r = .poll ∨ ∃ q, r = .send q) →
    ∃ t : State, runRequests s rs = .next t ∧ t.rxBuf = s.rxBuf ∧ t.rxOff = s.rxOff ∧ t.rxChan = [] ∧
      ∀ bytes : List Byte, bytes ≠ [] →
        (∃ f, exec .poll { t with rxChan := bytes } = .fault f ∧ exec .poll { s with rxChan := bytes } = .fault f) ∨
        ∃ t' s', exec .poll { t with rxChan := bytes } = .next t' ∧ exec .poll { s with rxChan := bytes } = .next s' ∧
          SameRx t' s'

/-! ### The whole machine -/

/-- Receive and transmit are independent (R61): SENDs leave the receive state, a partial frame with it, as it was and their
outcome depends on the transmit half alone; a POLL leaves the transmit half as it was and its outcome depends on the
receive half alone. -/
def Obligations.ReceiveAndTransmitAreIndependent : Prop :=
  (∀ (s : State) (qs : List SendRequest), ∃ t, runRequests s (qs.map .send) = .next t ∧ SameRx s t) ∧
  (∀ (s s' t t' : State) (q : SendRequest), SameTx s s' → exec (decodeRequest (.send q)) s = .next t →
    exec (decodeRequest (.send q)) s' = .next t' → SameTx t t') ∧
  (∀ s t : State, exec .poll s = .next t → SameTx s t) ∧
  (∀ s s' t : State, SameRx s s' → exec .poll s = .next t → ∃ t', exec .poll s' = .next t' ∧ SameRx t t')

/-- No rule of the block reads `rx_status` or `tx_status` (R25, R29): other values in them change no instruction's outcome
but for those two registers themselves. -/
def Obligations.StatusRegistersAreInformational : Prop :=
  ∀ (i : Instr) (s : State) (r r' : RxStatus) (x x' : TxStatus),
    (∀ t, exec i s = .next t →
      ∃ t', exec i (s.withStatus r x) = .next t' ∧ t'.withStatus r' x' = t.withStatus r' x' ∧
        (t'.rxStatus = t.rxStatus ∨ t'.rxStatus = r) ∧ (t'.txStatus = t.txStatus ∨ t'.txStatus = x)) ∧
    (∀ f, exec i s = .fault f → exec i (s.withStatus r x) = .fault f)

/-- Message lifetime (R148): `msg` changes only in a POLL or a RESET, RESET zeroes it, and a POLL zeroes it first thing, so
that its outcome does not depend on the message that was there. -/
def Obligations.MessageStaysUntilPollOrReset : Prop :=
  (∀ s t : State, step s = .next t →
    (∀ rest, s.inbox ≠ .request .poll :: rest) → (∀ rest, s.inbox ≠ .request .reset :: rest) → t.msg = s.msg) ∧
  (∀ s t : State, exec .reset s = .next t → t.msg = Msg.zero) ∧
  (∀ (s : State) (m : Msg) (r : RxResult), exec .poll { s with msg := m, rxResult := r } = exec .poll s) ∧
  (∀ s t : State, exec .poll s = .next t → t.rxResult = .nothing → t.msg = Msg.zero)

/-- RESET (R190, R191): every element of the block's state at its reset value; the parameters, the channel's inbound queue,
`tx_seq` and the host's inputs as they were. -/
def Obligations.ResetEffect : Prop :=
  ∀ s : State, exec .reset s = .next
    { cfg := s.cfg, rxBuf := [], rxOff := 0, rxResult := .nothing, rxStatus := .idle,
      msg := ⟨.none, 0, 0, Vector.replicate 252 0⟩, txStage := ⟨0, 0, 0, 0, 0, Vector.replicate 252 0⟩, txStatus := .idle,
      rxChan := s.rxChan, txSeq := s.txSeq, inbox := s.inbox }

/-- One RESET, from any state of a block with legal parameters, is enough for every invariant to hold (R193). -/
def Obligations.ResetEstablishesInvariant : Prop :=
  ∀ s : State, s.cfg.Legal → ∃ t, exec .reset s = .next t ∧ t.Inv

/-- The state right after reset meets the invariant, for every legal choice of parameters and for the model's own choice,
REF (log entries 1 and 2). -/
def Obligations.ResetStateMeetsInvariant : Prop :=
  (∀ p : Params, p.Legal → (State.resetWith p).Inv) ∧ State.reset.Inv

/-- Every step keeps the invariant. Of its parts the receive buffer's canonical form alone is the model's own choice (log entry
12), the others are R10, R23, R27 and R28. -/
def Obligations.EveryStepKeepsInvariant : Prop :=
  ∀ s t : State, s.Inv → step s = .next t → t.Inv

/-- From a state that meets the invariant no step faults and none is refused: the block raises no exception (R170). -/
def Obligations.EveryStepCompletes : Prop :=
  ∀ s : State, s.Inv → ∃ t, step s = .next t

/-- R23 (a) to (e) and R27, written out, of every state a step gives from one that meets the invariant. -/
def Obligations.ReceiveStateInvariants : Prop :=
  ∀ s t : State, s.Inv → step s = .next t →
    (1 ≤ t.rxOff → t.rxRead 0 = t.cfg.h1) ∧
    (3 ≤ t.rxOff → t.rxRead 1 = t.cfg.h2 ∧ 1 ≤ (t.rxRead 2).toNat ∧ 3 + (t.rxRead 2).toNat ≤ t.cfg.rxCap) ∧
    (3 ≤ t.rxOff → t.rxOff < 3 + (t.rxRead 2).toNat) ∧
    t.rxOff + 1 ≤ t.cfg.rxCap ∧
    (∀ i, t.rxOff ≤ i → t.rxRead i = 0x00) ∧
    (t.msg.kind ≠ .none ↔ t.rxResult = .received) ∧ (t.rxResult = .received → t.rxStatus = .msg)

/-- Bytes are consumed from the front of the inbound queue and emitted at the end of `tx_seq`, and nothing emitted is ever
undone (R57, R59); only POLL consumes, only a SEND emits. -/
def Obligations.ChannelOrderIsKept : Prop :=
  ∀ (i : Instr) (s t : State), exec i s = .next t →
    (∃ taken, s.rxChan = taken ++ t.rxChan ∧ (i ≠ .poll → taken = [])) ∧
    (∃ emitted, t.txSeq = s.txSeq ++ emitted ∧
      (i.isInbound = true ∨ i = .poll ∨ i = .reset → emitted = []))

/-- No step writes a parameter (R11). -/
def Obligations.ParametersAreFixed : Prop :=
  ∀ s t : State, step s = .next t → t.cfg = s.cfg

/-- Every instruction keeps the canonical form of the list that holds the receive buffer, whatever the rest of the state. The
form (indices strictly rising, no entry equal to what an unlisted index reads as) is the model's own choice of representation
(log entry 12, over the unlisted value of log entry 3), no rule of the spec: the spec gives only the bytes it holds (R21). -/
def Obligations.BufferStaysCanonical : Prop :=
  ∀ (i : Instr) (s t : State), s.rxBuf.wf → exec i s = .next t → t.rxBuf.wf

/-- A step with a request first in the host's inputs (the model's own queue, log entry 8) takes it and runs the instruction it
decodes to, which is well-formed. -/
def Obligations.StepRunsTheDecodedRequest : Prop :=
  ∀ (s : State) (r : Request) (rest : List HostInput), s.inbox = .request r :: rest →
    (decodeRequest r).wf s.cfg ∧ step s = exec (decodeRequest r) { s with inbox := rest }

/-- A step with a delivery first in the host's inputs (the model's own queue, log entry 8) appends its bytes to the channel's
queue; with no input the block keeps all its state (R180, R182). -/
def Obligations.StepDeliversOrIdles : Prop :=
  ∀ s : State,
    (∀ (bytes : List Byte) (rest : List HostInput), s.inbox = .deliver bytes :: rest →
      step s = .next { s with rxChan := s.rxChan ++ bytes, inbox := rest }) ∧
    (s.inbox = [] → step s = .next s)

/-- An inbound frame placed for the next step (log entry 6) is run by that step: it leaves what the frame's instruction
leaves. -/
def Obligations.PlacedFrameRuns : Prop :=
  ∀ (s : State) (i : Instr) (f : List Byte), s.cfg.Legal → i.isInbound = true → i.wf s.cfg →
    encode s.cfg i = .frame f → step (s.placeFrame f) = exec i (s.polled s.rxChan)

/-- The codes of the status registers and of `msg.kind` (R20, R25, R26, R29). -/
def Obligations.StatusCodes : Prop :=
  [RxStatus.idle, .accum, .noise, .dropHeader, .dropLength, .ack, .dropFields, .dropCommand, .msg].map rxStatusCode
    = [0, 1, 2, 3, 4, 5, 6, 7, 8] ∧
  [RxResult.nothing, .received].map rxResultCode = [0, 1] ∧
  [MsgKind.none, .rvarResp, .rregResp].map msgKindCode = [0, 1, 2] ∧
  [TxStatus.idle, .sent, .noop, .reject].map txStatusCode = [0, 1, 2, 3]
end

