-- ==== Sys2Proof/Laws/Operands.lean ====
section
/-! SUPPORT. Laws/Operands.lean: small lemmas about the operand forms: words and bytes, frame fields, the fast-path prefixes,
and an array after its first entries were written. -/

namespace Sys2Proof.Machine

theorem word_hi8_lo8 (w : Word) : word (hi8 w) (lo8 w) = w := by
  apply BitVec.eq_of_toNat_eq
  simp only [word, hi8, lo8, BitVec.toNat_or, BitVec.toNat_shiftLeft, BitVec.toNat_setWidth, BitVec.extractLsb'_toNat,
    Nat.shiftRight_zero]
  have hw := w.isLt
  have hd : w.toNat >>> 8 = w.toNat / 256 := by simp [Nat.shiftRight_eq_div_pow]
  have h1 : w.toNat / 256 % 2 ^ 8 % 2 ^ 16 = w.toNat / 256 := by omega
  have h2 : w.toNat % 2 ^ 8 % 2 ^ 16 = w.toNat % 256 := by omega
  rw [hd, h1, h2, Nat.shiftLeft_eq, Nat.mod_eq_of_lt (by omega), ← Nat.shiftLeft_eq,
    ← Nat.shiftLeft_add_eq_or_of_lt (by omega), Nat.shiftLeft_eq]
  omega

theorem lo8_setWidth (a : Byte) : lo8 (a.setWidth 16) = a := by
  apply BitVec.eq_of_toNat_eq
  have := a.isLt
  simp [lo8]
  omega

theorem setWidth_lo8 {w : Word} (h : w.toNat ≤ 0xFF) : (lo8 w).setWidth 16 = w := by
  apply BitVec.eq_of_toNat_eq
  simp [lo8]
  omega

@[simp] theorem wordBytes_length (w : Word) : (wordBytes w).length = 2 := rfl

@[simp] theorem longBytes_length (u : DWord) : (longBytes u).length = 4 := rfl

@[simp] theorem addrBytes_wreg (a : Word) : addrBytes .wreg a = [lo8 a] := rfl

@[simp] theorem addrBytes_wvar (a : Word) : addrBytes .wvar a = wordBytes a := rfl

@[simp] theorem rvarWords_length (body : List Byte) : (rvarWords body).length = ceil2 (fieldAt body 6).toNat := by
  simp [rvarWords]

@[simp] theorem rregWords_length (body : List Byte) : (rregWords body).length = (fieldAt body 5).toNat := by
  simp [rregWords]

theorem rvarFits_iff (body : List Byte) :
    rvarFits body = true ↔ 4 ≤ bodyLen body ∧ 4 + 2 * ceil2 (fieldAt body 6).toNat ≤ bodyLen body :=
  decide_eq_true_iff

theorem rregFits_iff (body : List Byte) :
    rregFits body = true ↔ 3 ≤ bodyLen body ∧ 3 + (fieldAt body 5).toNat ≤ bodyLen body :=
  decide_eq_true_iff

/-- The only acknowledgement body is the literal "OK". -/
theorem isAckBody_iff (body : List Byte) : isAckBody body = true ↔ body = [ok0, ok1] := by
  unfold isAckBody bodyLen fieldAt
  simp only [decide_eq_true_eq]
  constructor
  · rintro ⟨hlen, h0, h1⟩
    obtain ⟨x, y, rfl⟩ := List.length_eq_two.1 (show body.length = 2 by omega)
    simp at h0 h1
    simp [h0, h1]
  · rintro rfl
    decide

/-- A literal prefix that `fast_prefix()` answers is one of the three and stands at the head of the channel. -/
theorem fastPrefix_some {p : Params} {chan pre : List Byte} (h : fastPrefix p chan = some pre) :
    pre ∈ literalPrefixes p ∧ pre.length ≤ chan.length ∧ chan.take pre.length = pre := by
  have hm := List.mem_of_find?_eq_some h
  have hp := List.find?_some h
  exact ⟨hm, by simpa using hp⟩

theorem literalPrefixes_head {p : Params} {pre : List Byte} (h : pre ∈ literalPrefixes p) :
    ∃ rest, pre = p.h1 :: p.h2 :: rest ∧ (rest = [] ∨ rest = [p.fpLen] ∨ rest = [p.fpLen, p.cRvar]) := by
  simp only [literalPrefixes, fpCmd, List.mem_cons, List.not_mem_nil, or_false] at h
  rcases h with rfl | rfl | rfl
  · exact ⟨_, rfl, .inr (.inr rfl)⟩
  · exact ⟨_, rfl, .inr (.inl rfl)⟩
  · exact ⟨_, rfl, .inl rfl⟩

/-- The entries of an array after its first ones were written. -/
theorem overlay_getElem {α : Type} {n : Nat} (xs : List α) (v : Vector α n) (k : Nat) (hk : k < n) :
    (overlay xs v)[k] = if h : k < xs.length then xs[k] else v[k] := by
  simp only [overlay, Vector.getElem_mk, List.getElem_toArray]
  by_cases h : k < xs.length
  · rw [dif_pos h, List.getElem_append_left (by simp; omega), List.getElem_take]
  · rw [dif_neg h, List.getElem_append_right (by simp; omega), List.getElem_drop]
    simp only [List.length_take, Vector.getElem_toList]
    congr 1
    omega

theorem overlay_toList_take {α : Type} {n : Nat} (xs : List α) (v : Vector α n) (h : xs.length ≤ n) :
    (overlay xs v).toList.take xs.length = xs := by
  show (xs.take n ++ v.toList.drop xs.length).take xs.length = xs
  rw [List.take_of_length_le h, List.take_left]

end Sys2Proof.Machine
end

