-- ==== Sys2Proof/Laws/Encoding.lean ====
section
/-! SUPPORT. Laws/Encoding.lean: what the decoder's parts do, once: the frame of a body and back, the row of a command byte,
and which requests are refused. -/

namespace Sys2Proof.Machine

theorem bodyLen_pos (body : List Byte) : 1 ≤ bodyLen body := by unfold bodyLen; omega

/-- The frame of a body that fits decodes to the row its command byte selects. -/
theorem decodeFrame_frameBytes (p : Params) (cmd : Byte) (body : List Byte) (h : bodyFits p body) :
    decodeFrame p (frameBytes p cmd body) = .ok (classify p cmd body) := by
  obtain ⟨h1, h2⟩ := h
  have hl : (BitVec.ofNat 8 (bodyLen body)).toNat = bodyLen body := by
    rw [BitVec.toNat_ofNat]; omega
  have hpos : bodyLen body ≠ 0 := by unfold bodyLen; omega
  simp [decodeFrame, frameBytes, hl, hpos]
  omega

/-- Whatever the decoder accepts is the frame of a body that fits. -/
theorem decodeFrame_ok {p : Params} {f : List Byte} {i : Instr} (h : decodeFrame p f = .ok i) :
    ∃ cmd body, bodyFits p body ∧ f = frameBytes p cmd body ∧ i = classify p cmd body := by
  unfold decodeFrame at h
  split at h
  · rename_i b0 b1 len rest
    split at h
    · cases h
    · split at h
      · cases h
      · rename_i hh hl
        split at h
        · cases h
        · rename_i cmd body
          split at h
          · rename_i hb
            have := len.isLt
            refine ⟨cmd, body, ⟨by omega, by omega⟩, ?_, by cases h; rfl⟩
            simp at hh
            simp [frameBytes, hh, hb]
          · cases h
  · cases h

/-- A row selected by a command byte is a well-formed inbound instruction whose encoding is that frame. -/
theorem classify_wf (p : Params) (cmd : Byte) (body : List Byte) (h : bodyFits p body) :
    (classify p cmd body).wf p ∧ encode p (classify p cmd body) = .frame (frameBytes p cmd body) ∧
      (classify p cmd body).isInbound = true := by
  unfold classify
  split
  · rename_i h1
    by_cases ha : isAckBody body = true
    · rw [if_pos ha]; rw [isAckBody_iff] at ha; subst ha h1; exact ⟨trivial, rfl, rfl⟩
    · rw [if_neg ha]; subst h1; exact ⟨⟨h, by simpa using ha⟩, rfl, rfl⟩
  · split
    · rename_i h1
      by_cases ha : isAckBody body = true
      · rw [if_pos ha]; rw [isAckBody_iff] at ha; subst ha h1; exact ⟨trivial, rfl, rfl⟩
      · rw [if_neg ha]; subst h1; exact ⟨⟨h, by simpa using ha⟩, rfl, rfl⟩
    · split
      · rename_i h1; subst h1; exact ⟨h, rfl, rfl⟩
      · split
        · rename_i h1; subst h1; exact ⟨h, rfl, rfl⟩
        · exact ⟨⟨h, by simp_all⟩, rfl, rfl⟩

/-- R110's four cases, as propositions. -/
theorem illegalRequest_iff (q : SendRequest) : illegalRequest q = true ↔
      (q.cmd = .rreg ∨ q.cmd = .rvar) ∨
      (q.cmd = .wreg ∧ q.addr.toNat > 0xFF) ∨
      (q.cmd = .wreg ∧ ∃ t, q.payload = .text t) ∨
      (∃ t, q.payload = .text t ∧ t.length > 252) := by
  obtain ⟨cmd, addr, pl⟩ := q
  have : addr > 0xFF ↔ addr.toNat > 0xFF := by
    rw [gt_iff_lt, BitVec.lt_def]; rfl
  cases cmd <;> cases pl <;> simp [illegalRequest, isText, isLongText, BitVec.lt_def]

/-- A request the codec does not refuse is a row with a frame, or the empty text. -/
theorem decodeSend_cases (p : Params) (q : SendRequest) (h : ¬ illegalRequest q = true) :
    (∃ f, outboundFrame p (decodeSend q) = some f) ∨ ∃ a, decodeSend q = .sendWvarTextEmpty a := by
  have hn := h
  rw [illegalRequest_iff] at hn
  simp only [decodeSend, if_neg h]
  obtain ⟨cmd, addr, pl⟩ := q
  cases cmd
  · cases pl <;> simp at hn <;> simp [outboundFrame]
  · simp at hn
  · cases pl with
    | none => simp [outboundFrame]
    | byte b => simp [outboundFrame]
    | int v => by_cases hl : isLong v = true <;> simp [hl, outboundFrame]
    | text t => cases t <;> simp [outboundFrame]
  · simp at hn

/-- The byte at an offset of a frame's address or payload. -/
theorem frameBytes_getD (p : Params) (c : Byte) (body : List Byte) (k : Nat) (h : 4 ≤ k) :
    (frameBytes p c body).getD k 0 = fieldAt body k := by
  obtain ⟨j, rfl⟩ := Nat.exists_eq_add_of_le h
  simp only [frameBytes, fieldAt, show 4 + j - 4 = j by omega]
  rw [List.getD_append_right _ _ _ _ (by simp)]
  simp

end Sys2Proof.Machine
end

