-- ==== Sys2Proof/Laws/Memory.lean ====
section
/-! SUPPORT. Laws/Memory.lean: the laws of the receive buffer's memory: a read after a write, the canonical form kept by every
operation, and a canonical memory determined by its reads. -/

namespace Sys2Proof.Machine

@[simp] theorem Memory.read_nil (a : Nat) : Memory.read [] a = unlisted := rfl

theorem Memory.wf_nil : Memory.wf [] := ⟨List.Pairwise.nil, by simp⟩

theorem Memory.wf_tail {c : Host.Cell} {m : Memory} (h : Memory.wf (c :: m)) : Memory.wf m :=
  ⟨(List.pairwise_cons.1 h.1).2, fun d hd => h.2 d (List.mem_cons_of_mem c hd)⟩

/-- An index below every entry reads as unlisted. -/
theorem Memory.read_of_lt {m : Memory} {a : Nat} (h : ∀ c ∈ m, a < c.1) : m.read a = unlisted := by
  induction m with
  | nil => rfl
  | cons c m ih =>
    have hc : c.1 ≠ a := by have := h c (by simp); omega
    simp only [Memory.read, hc, if_false]
    exact ih fun d hd => h d (List.mem_cons_of_mem c hd)

theorem Memory.entry_append_read (m : Memory) (a i : Nat) (b : Byte) (h : m.read a = unlisted) :
    (Memory.entry a b ++ m).read i = if i = a then b else m.read i := by
  unfold Memory.entry
  by_cases hb : b = unlisted
  · by_cases hi : i = a
    · subst hi; simp [hb, h]
    · simp [hb, hi]
  · by_cases hi : i = a
    · simp [hb, hi, Memory.read]
    · have : a ≠ i := fun e => hi e.symm
      simp [hb, hi, Memory.read, this]

/-- A read after a write: the written byte at its index, the old byte everywhere else. -/
theorem Memory.read_write {m : Memory} (hm : m.wf) (a i : Nat) (b : Byte) :
    (m.write a b).read i = if i = a then b else m.read i := by
  induction m with
  | nil => simpa [Memory.write] using Memory.entry_append_read [] a i b rfl
  | cons c m ih =>
    have hlow : ∀ d ∈ m, c.1 < d.1 := (List.pairwise_cons.1 hm.1).1
    simp only [Memory.write]
    split
    · rename_i hlt
      refine Memory.entry_append_read _ _ _ _ (Memory.read_of_lt ?_)
      intro d hd
      rcases List.mem_cons.1 hd with rfl | hd
      · exact hlt
      · exact Nat.lt_trans hlt (hlow d hd)
    · split
      · rename_i _ heq
        rw [Memory.entry_append_read _ _ _ _ (Memory.read_of_lt (by rw [heq]; exact hlow))]
        by_cases hi : i = a
        · simp [hi]
        · have : c.1 ≠ i := by omega
          simp [hi, Memory.read, this]
      · rename_i hne
        simp only [Memory.read, ih (Memory.wf_tail hm)]
        by_cases hi : c.1 = i
        · have : i ≠ a := by omega
          simp [hi, this]
        · simp [hi]

theorem Memory.mem_write {m : Memory} {a : Nat} {b : Byte} {d : Host.Cell} (h : d ∈ m.write a b) :
    d ∈ m ∨ (d = (a, b) ∧ b ≠ unlisted) := by
  have hent : d ∈ Memory.entry a b → d = (a, b) ∧ b ≠ unlisted := by
    unfold Memory.entry
    split
    · simp
    · rename_i hb
      intro hd
      exact ⟨by simpa using hd, hb⟩
  induction m with
  | nil => exact .inr (hent h)
  | cons c m ih =>
    simp only [Memory.write] at h
    split at h
    · rcases List.mem_append.1 h with h | h
      · exact .inr (hent h)
      · exact .inl h
    · split at h
      · rcases List.mem_append.1 h with h | h
        · exact .inr (hent h)
        · exact .inl (List.mem_cons_of_mem _ h)
      · rcases List.mem_cons.1 h with rfl | h
        · exact .inl (by simp)
        · exact (ih h).imp_left (List.mem_cons_of_mem _)

theorem Memory.entry_append_wf {m : Memory} {a : Nat} {b : Byte} (hm : m.wf) (h : ∀ c ∈ m, a < c.1) :
    Memory.wf (Memory.entry a b ++ m) := by
  unfold Memory.entry
  split
  · simpa using hm
  · rename_i hb
    refine ⟨List.pairwise_cons.2 ⟨h, hm.1⟩, ?_⟩
    intro c hc
    rcases List.mem_cons.1 hc with rfl | hc
    · exact hb
    · exact hm.2 c hc

/-- A write keeps the canonical form. -/
theorem Memory.wf_write {m : Memory} (hm : m.wf) (a : Nat) (b : Byte) : (m.write a b).wf := by
  induction m with
  | nil => simpa [Memory.write] using Memory.entry_append_wf (b := b) Memory.wf_nil (a := a) (by simp)
  | cons c m ih =>
    have hlow : ∀ d ∈ m, c.1 < d.1 := (List.pairwise_cons.1 hm.1).1
    simp only [Memory.write]
    split
    · rename_i hlt
      refine Memory.entry_append_wf hm ?_
      intro d hd
      rcases List.mem_cons.1 hd with rfl | hd
      · exact hlt
      · exact Nat.lt_trans hlt (hlow d hd)
    · split
      · rename_i _ heq
        exact Memory.entry_append_wf (Memory.wf_tail hm) (by rw [heq]; exact hlow)
      · rename_i hlt hne
        have ih := ih (Memory.wf_tail hm)
        refine ⟨List.pairwise_cons.2 ⟨?_, ih.1⟩, ?_⟩
        · intro d hd
          rcases Memory.mem_write hd with hd | ⟨rfl, _⟩
          · exact hlow d hd
          · show c.1 < a
            omega
        · intro d hd
          rcases List.mem_cons.1 hd with rfl | hd
          · exact hm.2 d (by simp)
          · exact ih.2 d hd

/-- A canonical memory that reads as unlisted everywhere lists nothing. -/
theorem Memory.eq_nil_of_read {m : Memory} (hm : m.wf) (h : ∀ i, m.read i = unlisted) : m = [] := by
  cases m with
  | nil => rfl
  | cons c m => exact absurd (by simpa [Memory.read] using h c.1) (hm.2 c (by simp))

/-- Two canonical memories with equal reads are equal data. -/
theorem Memory.eq_of_read {m n : Memory} (hm : m.wf) (hn : n.wf) (h : ∀ i, m.read i = n.read i) : m = n := by
  induction m generalizing n with
  | nil => exact (Memory.eq_nil_of_read hn fun i => (h i).symm).symm
  | cons c m ih =>
    cases n with
    | nil => exact Memory.eq_nil_of_read hm h
    | cons d n =>
      have hc := (List.pairwise_cons.1 hm.1).1
      have hd := (List.pairwise_cons.1 hn.1).1
      have hcv : c.2 ≠ unlisted := hm.2 c (by simp)
      have hdv : d.2 ≠ unlisted := hn.2 d (by simp)
      have hcm : Memory.read m c.1 = unlisted := Memory.read_of_lt hc
      have hdn : Memory.read n d.1 = unlisted := Memory.read_of_lt hd
      have haddr : c.1 = d.1 := by
        rcases Nat.lt_trichotomy c.1 d.1 with hlt | heq | hgt
        · have h1 := h c.1
          rw [Memory.read_of_lt (m := d :: n) (a := c.1)] at h1
          · exact absurd (by simpa [Memory.read] using h1) hcv
          · intro e he
            rcases List.mem_cons.1 he with rfl | he
            · exact hlt
            · exact Nat.lt_trans hlt (hd e he)
        · exact heq
        · have h1 := h d.1
          rw [Memory.read_of_lt (m := c :: m) (a := d.1)] at h1
          · exact absurd (by simpa [Memory.read] using h1.symm) hdv
          · intro e he
            rcases List.mem_cons.1 he with rfl | he
            · exact hgt
            · exact Nat.lt_trans hgt (hc e he)
      have hval : c.2 = d.2 := by simpa [Memory.read, haddr] using h c.1
      have hrest : ∀ i, Memory.read m i = Memory.read n i := by
        intro i
        by_cases hi : c.1 = i
        · rw [← hi, hcm, haddr, hdn]
        · have := h i
          simpa [Memory.read, hi, ← haddr] using this
      rw [ih (Memory.wf_tail hm) (Memory.wf_tail hn) hrest, Prod.ext haddr hval]

/-- Storing a list of bytes keeps the canonical form. -/
theorem storeFrom_wf {m : Memory} (hm : m.wf) (i : Nat) (bytes : List Byte) : (storeFrom m i bytes).wf := by
  induction bytes generalizing m i with
  | nil => exact hm
  | cons b bytes ih => exact ih (Memory.wf_write hm i b) (i + 1)

/-- What a list of bytes stored from index `i` on reads as. -/
theorem storeFrom_read {m : Memory} (hm : m.wf) (i : Nat) (bytes : List Byte) (a : Nat) :
    (storeFrom m i bytes).read a = if i ≤ a ∧ a < i + bytes.length then bytes.getD (a - i) 0 else m.read a := by
  induction bytes generalizing m i with
  | nil => simp only [storeFrom, List.length_nil]; rw [if_neg (by omega)]
  | cons b bytes ih =>
    rw [storeFrom, ih (Memory.wf_write hm i b), Memory.read_write hm, List.length_cons]
    by_cases hai : a = i
    · subst hai; simp
    · by_cases hlt : i ≤ a ∧ a < i + (bytes.length + 1)
      · obtain ⟨k, rfl⟩ : ∃ k, a = i + 1 + k := ⟨a - (i + 1), by omega⟩
        have h1 : i + 1 + k - i = k + 1 := by omega
        have h2 : i + 1 + k - (i + 1) = k := by omega
        rw [if_pos ⟨by omega, by omega⟩, if_pos hlt, h1, h2, List.getD_cons_succ]
      · rw [if_neg (by omega), if_neg hai, if_neg hlt]

end Sys2Proof.Machine
end

