-- ==== Sys2Proof/Laws/PerInstr.lean ====
section
/-! SUPPORT. Laws/PerInstr.lean: the per-instruction family EncodeShape: what the encoding of a well-formed instruction looks
like (spec 30_encoding.md R70, R71, R87, R93). -/

namespace Sys2Proof.Laws.EncodeShape

open Sys2Proof Sys2Proof.Machine

/-- An inbound row is encoded by one frame that fits the receive buffer and begins `H1 H2 LEN` with LEN its length less 3;
every other row by a request. -/
def Shape (p : Params) (i : Instr) : Prop :=
  (i.isInbound = true → ∃ (len cmd : Byte) (body : List Byte),
    encode p i = .frame (p.h1 :: p.h2 :: len :: cmd :: body) ∧ len.toNat = 1 + body.length ∧
      3 + len.toNat ≤ p.rxCap) ∧
  (i.isInbound = false → ∃ r : Request, encode p i = .request r)

/-- Every well-formed instruction's encoding has the shape. -/
def Statement (i : Instr) : Prop := ∀ p : Params, p.Legal → i.wf p → Shape p i

/-- The frame of a body that fits has the shape. -/
theorem of_body {i : Instr} {p : Params} {cmd : Byte} {body : List Byte} (hi : i.isInbound = true)
    (he : encode p i = .frame (frameBytes p cmd body)) (hb : bodyFits p body) :
    Shape p i := by
  have hb1 := hb.1
  have hlen : (BitVec.ofNat 8 (bodyLen body)).toNat = bodyLen body := by rw [BitVec.toNat_ofNat]; omega
  refine ⟨fun _ => ⟨_, cmd, body, he, hlen, by rw [hlen]; exact hb.2⟩, fun h => ?_⟩
  rw [hi] at h
  cases h

/-- A row read from a request has the shape. -/
theorem of_request {i : Instr} {p : Params} {r : Request} (hi : i.isInbound = false) (he : encode p i = .request r) :
    Shape p i := by
  refine ⟨fun h => ?_, fun _ => ⟨r, he⟩⟩
  rw [hi] at h
  cases h

theorem ackFits {p : Params} (h : p.Legal) : bodyFits p [ok0, ok1] := by
  have h7 := h.2.1
  exact ⟨by decide, by simp only [bodyLen, List.length_cons, List.length_nil]; omega⟩

theorem sendWregNone (a : Byte) : Statement (.sendWregNone a) := fun _ _ _ => of_request rfl rfl
theorem sendWregByte (a b : Byte) : Statement (.sendWregByte a b) := fun _ _ _ => of_request rfl rfl
theorem sendWregInt (a : Byte) (v : IntPayload) : Statement (.sendWregInt a v) := fun _ _ _ => of_request rfl rfl
theorem sendWvarNone (a : Word) : Statement (.sendWvarNone a) := fun _ _ _ => of_request rfl rfl
theorem sendWvarByte (a : Word) (b : Byte) : Statement (.sendWvarByte a b) := fun _ _ _ => of_request rfl rfl
theorem sendWvarIntShort (a : Word) (v : IntPayload) : Statement (.sendWvarIntShort a v) :=
  fun _ _ _ => of_request rfl rfl
theorem sendWvarIntLong (a : Word) (v : IntPayload) : Statement (.sendWvarIntLong a v) :=
  fun _ _ _ => of_request rfl rfl
theorem sendWvarText (a : Word) (t : List Byte) : Statement (.sendWvarText a t) := fun _ _ _ => of_request rfl rfl
theorem sendWvarTextEmpty (a : Word) : Statement (.sendWvarTextEmpty a) := fun _ _ _ => of_request rfl rfl
theorem sendRefused (q : SendRequest) : Statement (.sendRefused q) := fun _ _ _ => of_request rfl rfl
theorem rxAckWreg : Statement .rxAckWreg := fun _ hp _ => of_body rfl rfl (ackFits hp)
theorem rxAckWvar : Statement .rxAckWvar := fun _ hp _ => of_body rfl rfl (ackFits hp)
theorem rxWriteNotAck (k : WriteCmd) (body : List Byte) : Statement (.rxWriteNotAck k body) :=
  fun _ _ hw => of_body rfl rfl hw.1
theorem rxRvarResp (body : List Byte) : Statement (.rxRvarResp body) := fun _ _ hw => of_body rfl rfl hw
theorem rxRregResp (body : List Byte) : Statement (.rxRregResp body) := fun _ _ hw => of_body rfl rfl hw
theorem rxUnknown (cmd : Byte) (body : List Byte) : Statement (.rxUnknown cmd body) :=
  fun _ _ hw => of_body rfl rfl hw.1
theorem poll : Statement .poll := fun _ _ _ => of_request rfl rfl
theorem reset : Statement .reset := fun _ _ _ => of_request rfl rfl

end Sys2Proof.Laws.EncodeShape
end

