-- ==== Sys2Proof/Laws/State.lean ====
section
/-! SUPPORT. Laws/State.lean: what each named update of the state leaves in each field, one lemma per field and update. -/

namespace Sys2Proof.Machine

/-! ### clearRx: CLEAR -/

@[simp] theorem State.clearRx_cfg (s : State) : (s.clearRx).cfg = s.cfg := rfl
@[simp] theorem State.clearRx_rxBuf (s : State) : (s.clearRx).rxBuf = [] := rfl
@[simp] theorem State.clearRx_rxOff (s : State) : (s.clearRx).rxOff = 0 := rfl
@[simp] theorem State.clearRx_rxResult (s : State) : (s.clearRx).rxResult = s.rxResult := rfl
@[simp] theorem State.clearRx_rxStatus (s : State) : (s.clearRx).rxStatus = s.rxStatus := rfl
@[simp] theorem State.clearRx_msg (s : State) : (s.clearRx).msg = s.msg := rfl
@[simp] theorem State.clearRx_txStage (s : State) : (s.clearRx).txStage = s.txStage := rfl
@[simp] theorem State.clearRx_txStatus (s : State) : (s.clearRx).txStatus = s.txStatus := rfl
@[simp] theorem State.clearRx_rxChan (s : State) : (s.clearRx).rxChan = s.rxChan := rfl
@[simp] theorem State.clearRx_txSeq (s : State) : (s.clearRx).txSeq = s.txSeq := rfl
@[simp] theorem State.clearRx_inbox (s : State) : (s.clearRx).inbox = s.inbox := rfl

/-! ### endFrame: the end of a DECODE arm -/

@[simp] theorem State.endFrame_cfg (s : State) (c : RxStatus) : (s.endFrame c).cfg = s.cfg := rfl
@[simp] theorem State.endFrame_rxBuf (s : State) (c : RxStatus) : (s.endFrame c).rxBuf = [] := rfl
@[simp] theorem State.endFrame_rxOff (s : State) (c : RxStatus) : (s.endFrame c).rxOff = 0 := rfl
@[simp] theorem State.endFrame_rxResult (s : State) (c : RxStatus) : (s.endFrame c).rxResult = s.rxResult := rfl
@[simp] theorem State.endFrame_rxStatus (s : State) (c : RxStatus) : (s.endFrame c).rxStatus = c := rfl
@[simp] theorem State.endFrame_msg (s : State) (c : RxStatus) : (s.endFrame c).msg = s.msg := rfl
@[simp] theorem State.endFrame_txStage (s : State) (c : RxStatus) : (s.endFrame c).txStage = s.txStage := rfl
@[simp] theorem State.endFrame_txStatus (s : State) (c : RxStatus) : (s.endFrame c).txStatus = s.txStatus := rfl
@[simp] theorem State.endFrame_rxChan (s : State) (c : RxStatus) : (s.endFrame c).rxChan = s.rxChan := rfl
@[simp] theorem State.endFrame_txSeq (s : State) (c : RxStatus) : (s.endFrame c).txSeq = s.txSeq := rfl
@[simp] theorem State.endFrame_inbox (s : State) (c : RxStatus) : (s.endFrame c).inbox = s.inbox := rfl

/-! ### setRxStatus: a write of `rx_status` -/

@[simp] theorem State.setRxStatus_cfg (s : State) (c : RxStatus) : (s.setRxStatus c).cfg = s.cfg := rfl
@[simp] theorem State.setRxStatus_rxBuf (s : State) (c : RxStatus) : (s.setRxStatus c).rxBuf = s.rxBuf := rfl
@[simp] theorem State.setRxStatus_rxOff (s : State) (c : RxStatus) : (s.setRxStatus c).rxOff = s.rxOff := rfl
@[simp] theorem State.setRxStatus_rxResult (s : State) (c : RxStatus) : (s.setRxStatus c).rxResult = s.rxResult := rfl
@[simp] theorem State.setRxStatus_rxStatus (s : State) (c : RxStatus) : (s.setRxStatus c).rxStatus = c := rfl
@[simp] theorem State.setRxStatus_msg (s : State) (c : RxStatus) : (s.setRxStatus c).msg = s.msg := rfl
@[simp] theorem State.setRxStatus_txStage (s : State) (c : RxStatus) : (s.setRxStatus c).txStage = s.txStage := rfl
@[simp] theorem State.setRxStatus_txStatus (s : State) (c : RxStatus) : (s.setRxStatus c).txStatus = s.txStatus := rfl
@[simp] theorem State.setRxStatus_rxChan (s : State) (c : RxStatus) : (s.setRxStatus c).rxChan = s.rxChan := rfl
@[simp] theorem State.setRxStatus_txSeq (s : State) (c : RxStatus) : (s.setRxStatus c).txSeq = s.txSeq := rfl
@[simp] theorem State.setRxStatus_inbox (s : State) (c : RxStatus) : (s.setRxStatus c).inbox = s.inbox := rfl

/-! ### beginPoll: the start of a POLL -/

@[simp] theorem State.beginPoll_cfg (s : State) : (s.beginPoll).cfg = s.cfg := rfl
@[simp] theorem State.beginPoll_rxBuf (s : State) : (s.beginPoll).rxBuf = s.rxBuf := rfl
@[simp] theorem State.beginPoll_rxOff (s : State) : (s.beginPoll).rxOff = s.rxOff := rfl
@[simp] theorem State.beginPoll_rxResult (s : State) : (s.beginPoll).rxResult = .nothing := rfl
@[simp] theorem State.beginPoll_rxStatus (s : State) : (s.beginPoll).rxStatus = s.rxStatus := rfl
@[simp] theorem State.beginPoll_msg (s : State) : (s.beginPoll).msg = Msg.zero := rfl
@[simp] theorem State.beginPoll_txStage (s : State) : (s.beginPoll).txStage = s.txStage := rfl
@[simp] theorem State.beginPoll_txStatus (s : State) : (s.beginPoll).txStatus = s.txStatus := rfl
@[simp] theorem State.beginPoll_rxChan (s : State) : (s.beginPoll).rxChan = s.rxChan := rfl
@[simp] theorem State.beginPoll_txSeq (s : State) : (s.beginPoll).txSeq = s.txSeq := rfl
@[simp] theorem State.beginPoll_inbox (s : State) : (s.beginPoll).inbox = s.inbox := rfl

/-! ### writeMsg: a decoded message -/

@[simp] theorem State.writeMsg_cfg (s : State) (k : MsgKind) (a : Word) (n : Byte) (xs : List Word) : (s.writeMsg k a n xs).cfg = s.cfg := rfl
@[simp] theorem State.writeMsg_rxBuf (s : State) (k : MsgKind) (a : Word) (n : Byte) (xs : List Word) : (s.writeMsg k a n xs).rxBuf = s.rxBuf := rfl
@[simp] theorem State.writeMsg_rxOff (s : State) (k : MsgKind) (a : Word) (n : Byte) (xs : List Word) : (s.writeMsg k a n xs).rxOff = s.rxOff := rfl
@[simp] theorem State.writeMsg_rxResult (s : State) (k : MsgKind) (a : Word) (n : Byte) (xs : List Word) : (s.writeMsg k a n xs).rxResult = s.rxResult := rfl
@[simp] theorem State.writeMsg_rxStatus (s : State) (k : MsgKind) (a : Word) (n : Byte) (xs : List Word) : (s.writeMsg k a n xs).rxStatus = s.rxStatus := rfl
@[simp] theorem State.writeMsg_msg (s : State) (k : MsgKind) (a : Word) (n : Byte) (xs : List Word) : (s.writeMsg k a n xs).msg = ⟨k, a, n, overlay xs s.msg.data⟩ := rfl
@[simp] theorem State.writeMsg_txStage (s : State) (k : MsgKind) (a : Word) (n : Byte) (xs : List Word) : (s.writeMsg k a n xs).txStage = s.txStage := rfl
@[simp] theorem State.writeMsg_txStatus (s : State) (k : MsgKind) (a : Word) (n : Byte) (xs : List Word) : (s.writeMsg k a n xs).txStatus = s.txStatus := rfl
@[simp] theorem State.writeMsg_rxChan (s : State) (k : MsgKind) (a : Word) (n : Byte) (xs : List Word) : (s.writeMsg k a n xs).rxChan = s.rxChan := rfl
@[simp] theorem State.writeMsg_txSeq (s : State) (k : MsgKind) (a : Word) (n : Byte) (xs : List Word) : (s.writeMsg k a n xs).txSeq = s.txSeq := rfl
@[simp] theorem State.writeMsg_inbox (s : State) (k : MsgKind) (a : Word) (n : Byte) (xs : List Word) : (s.writeMsg k a n xs).inbox = s.inbox := rfl

/-! ### emit: `Emit` -/

@[simp] theorem State.emit_cfg (s : State) (b : Byte) : (s.emit b).cfg = s.cfg := rfl
@[simp] theorem State.emit_rxBuf (s : State) (b : Byte) : (s.emit b).rxBuf = s.rxBuf := rfl
@[simp] theorem State.emit_rxOff (s : State) (b : Byte) : (s.emit b).rxOff = s.rxOff := rfl
@[simp] theorem State.emit_rxResult (s : State) (b : Byte) : (s.emit b).rxResult = s.rxResult := rfl
@[simp] theorem State.emit_rxStatus (s : State) (b : Byte) : (s.emit b).rxStatus = s.rxStatus := rfl
@[simp] theorem State.emit_msg (s : State) (b : Byte) : (s.emit b).msg = s.msg := rfl
@[simp] theorem State.emit_txStage (s : State) (b : Byte) : (s.emit b).txStage = s.txStage := rfl
@[simp] theorem State.emit_txStatus (s : State) (b : Byte) : (s.emit b).txStatus = s.txStatus := rfl
@[simp] theorem State.emit_rxChan (s : State) (b : Byte) : (s.emit b).rxChan = s.rxChan := rfl
@[simp] theorem State.emit_txSeq (s : State) (b : Byte) : (s.emit b).txSeq = s.txSeq ++ [b] := rfl
@[simp] theorem State.emit_inbox (s : State) (b : Byte) : (s.emit b).inbox = s.inbox := rfl

/-! ### stage: a built frame in the staging record -/

@[simp] theorem State.stage_cfg (s : State) (st : TxStage) : (s.stage st).cfg = s.cfg := rfl
@[simp] theorem State.stage_rxBuf (s : State) (st : TxStage) : (s.stage st).rxBuf = s.rxBuf := rfl
@[simp] theorem State.stage_rxOff (s : State) (st : TxStage) : (s.stage st).rxOff = s.rxOff := rfl
@[simp] theorem State.stage_rxResult (s : State) (st : TxStage) : (s.stage st).rxResult = s.rxResult := rfl
@[simp] theorem State.stage_rxStatus (s : State) (st : TxStage) : (s.stage st).rxStatus = s.rxStatus := rfl
@[simp] theorem State.stage_msg (s : State) (st : TxStage) : (s.stage st).msg = s.msg := rfl
@[simp] theorem State.stage_txStage (s : State) (st : TxStage) : (s.stage st).txStage = st := rfl
@[simp] theorem State.stage_txStatus (s : State) (st : TxStage) : (s.stage st).txStatus = s.txStatus := rfl
@[simp] theorem State.stage_rxChan (s : State) (st : TxStage) : (s.stage st).rxChan = s.rxChan := rfl
@[simp] theorem State.stage_txSeq (s : State) (st : TxStage) : (s.stage st).txSeq = s.txSeq := rfl
@[simp] theorem State.stage_inbox (s : State) (st : TxStage) : (s.stage st).inbox = s.inbox := rfl

/-! ### endSend: the end of a SEND -/

@[simp] theorem State.endSend_cfg (s : State) : (s.endSend).cfg = s.cfg := rfl
@[simp] theorem State.endSend_rxBuf (s : State) : (s.endSend).rxBuf = s.rxBuf := rfl
@[simp] theorem State.endSend_rxOff (s : State) : (s.endSend).rxOff = s.rxOff := rfl
@[simp] theorem State.endSend_rxResult (s : State) : (s.endSend).rxResult = s.rxResult := rfl
@[simp] theorem State.endSend_rxStatus (s : State) : (s.endSend).rxStatus = s.rxStatus := rfl
@[simp] theorem State.endSend_msg (s : State) : (s.endSend).msg = s.msg := rfl
@[simp] theorem State.endSend_txStage (s : State) : (s.endSend).txStage = TxStage.zero := rfl
@[simp] theorem State.endSend_txStatus (s : State) : (s.endSend).txStatus = .sent := rfl
@[simp] theorem State.endSend_rxChan (s : State) : (s.endSend).rxChan = s.rxChan := rfl
@[simp] theorem State.endSend_txSeq (s : State) : (s.endSend).txSeq = s.txSeq := rfl
@[simp] theorem State.endSend_inbox (s : State) : (s.endSend).inbox = s.inbox := rfl

/-! ### noop: a no-op SEND -/

@[simp] theorem State.noop_cfg (s : State) : (s.noop).cfg = s.cfg := rfl
@[simp] theorem State.noop_rxBuf (s : State) : (s.noop).rxBuf = s.rxBuf := rfl
@[simp] theorem State.noop_rxOff (s : State) : (s.noop).rxOff = s.rxOff := rfl
@[simp] theorem State.noop_rxResult (s : State) : (s.noop).rxResult = s.rxResult := rfl
@[simp] theorem State.noop_rxStatus (s : State) : (s.noop).rxStatus = s.rxStatus := rfl
@[simp] theorem State.noop_msg (s : State) : (s.noop).msg = s.msg := rfl
@[simp] theorem State.noop_txStage (s : State) : (s.noop).txStage = s.txStage := rfl
@[simp] theorem State.noop_txStatus (s : State) : (s.noop).txStatus = .noop := rfl
@[simp] theorem State.noop_rxChan (s : State) : (s.noop).rxChan = s.rxChan := rfl
@[simp] theorem State.noop_txSeq (s : State) : (s.noop).txSeq = s.txSeq := rfl
@[simp] theorem State.noop_inbox (s : State) : (s.noop).inbox = s.inbox := rfl

/-! ### reject: a refused SEND -/

@[simp] theorem State.reject_cfg (s : State) : (s.reject).cfg = s.cfg := rfl
@[simp] theorem State.reject_rxBuf (s : State) : (s.reject).rxBuf = s.rxBuf := rfl
@[simp] theorem State.reject_rxOff (s : State) : (s.reject).rxOff = s.rxOff := rfl
@[simp] theorem State.reject_rxResult (s : State) : (s.reject).rxResult = s.rxResult := rfl
@[simp] theorem State.reject_rxStatus (s : State) : (s.reject).rxStatus = s.rxStatus := rfl
@[simp] theorem State.reject_msg (s : State) : (s.reject).msg = s.msg := rfl
@[simp] theorem State.reject_txStage (s : State) : (s.reject).txStage = s.txStage := rfl
@[simp] theorem State.reject_txStatus (s : State) : (s.reject).txStatus = .reject := rfl
@[simp] theorem State.reject_rxChan (s : State) : (s.reject).rxChan = s.rxChan := rfl
@[simp] theorem State.reject_txSeq (s : State) : (s.reject).txSeq = s.txSeq := rfl
@[simp] theorem State.reject_inbox (s : State) : (s.reject).inbox = s.inbox := rfl

/-! ### withFastpath: another value of FASTPATH -/

@[simp] theorem State.withFastpath_cfg (s : State) (b : Bool) : (s.withFastpath b).cfg = { s.cfg with fastpath := b } := rfl
@[simp] theorem State.withFastpath_rxBuf (s : State) (b : Bool) : (s.withFastpath b).rxBuf = s.rxBuf := rfl
@[simp] theorem State.withFastpath_rxOff (s : State) (b : Bool) : (s.withFastpath b).rxOff = s.rxOff := rfl
@[simp] theorem State.withFastpath_rxResult (s : State) (b : Bool) : (s.withFastpath b).rxResult = s.rxResult := rfl
@[simp] theorem State.withFastpath_rxStatus (s : State) (b : Bool) : (s.withFastpath b).rxStatus = s.rxStatus := rfl
@[simp] theorem State.withFastpath_msg (s : State) (b : Bool) : (s.withFastpath b).msg = s.msg := rfl
@[simp] theorem State.withFastpath_txStage (s : State) (b : Bool) : (s.withFastpath b).txStage = s.txStage := rfl
@[simp] theorem State.withFastpath_txStatus (s : State) (b : Bool) : (s.withFastpath b).txStatus = s.txStatus := rfl
@[simp] theorem State.withFastpath_rxChan (s : State) (b : Bool) : (s.withFastpath b).rxChan = s.rxChan := rfl
@[simp] theorem State.withFastpath_txSeq (s : State) (b : Bool) : (s.withFastpath b).txSeq = s.txSeq := rfl
@[simp] theorem State.withFastpath_inbox (s : State) (b : Bool) : (s.withFastpath b).inbox = s.inbox := rfl

/-! ### withStatus: other status values -/

@[simp] theorem State.withStatus_cfg (s : State) (c : RxStatus) (x : TxStatus) : (s.withStatus c x).cfg = s.cfg := rfl
@[simp] theorem State.withStatus_rxBuf (s : State) (c : RxStatus) (x : TxStatus) : (s.withStatus c x).rxBuf = s.rxBuf := rfl
@[simp] theorem State.withStatus_rxOff (s : State) (c : RxStatus) (x : TxStatus) : (s.withStatus c x).rxOff = s.rxOff := rfl
@[simp] theorem State.withStatus_rxResult (s : State) (c : RxStatus) (x : TxStatus) : (s.withStatus c x).rxResult = s.rxResult := rfl
@[simp] theorem State.withStatus_rxStatus (s : State) (c : RxStatus) (x : TxStatus) : (s.withStatus c x).rxStatus = c := rfl
@[simp] theorem State.withStatus_msg (s : State) (c : RxStatus) (x : TxStatus) : (s.withStatus c x).msg = s.msg := rfl
@[simp] theorem State.withStatus_txStage (s : State) (c : RxStatus) (x : TxStatus) : (s.withStatus c x).txStage = s.txStage := rfl
@[simp] theorem State.withStatus_txStatus (s : State) (c : RxStatus) (x : TxStatus) : (s.withStatus c x).txStatus = x := rfl
@[simp] theorem State.withStatus_rxChan (s : State) (c : RxStatus) (x : TxStatus) : (s.withStatus c x).rxChan = s.rxChan := rfl
@[simp] theorem State.withStatus_txSeq (s : State) (c : RxStatus) (x : TxStatus) : (s.withStatus c x).txSeq = s.txSeq := rfl
@[simp] theorem State.withStatus_inbox (s : State) (c : RxStatus) (x : TxStatus) : (s.withStatus c x).inbox = s.inbox := rfl

end Sys2Proof.Machine
end

