-- ==== Sys2Proof/Laws/Receive.lean ====
section
/-! SUPPORT. Laws/Receive.lean: what the receive operations do, once: the channel, the arms of DECODE, STEP and POLL. -/

namespace Sys2Proof.Machine

open Host (Outcome)

/-! ### The channel -/

theorem State.chanTake_cons {s : State} {b : Byte} {rest : List Byte} (h : s.rxChan = b :: rest) :
    s.chanTake = some (b, { s with rxChan := rest }) := by
  unfold State.chanTake; rw [h]

theorem State.chanTake_nil {s : State} (h : s.rxChan = []) : s.chanTake = none := by
  unfold State.chanTake; rw [h]

/-! ### Step results and the arms of DECODE -/

@[simp] theorem conclude_nothing (s : State) : conclude (s, .nothing) = s := rfl
@[simp] theorem conclude_pending (s : State) : conclude (s, .pending) = s := rfl
@[simp] theorem conclude_message (s : State) : conclude (s, .message) = { s with rxResult := .received } := rfl

/-- What a DECODE arm leaves: the buffer empty, a status code, and either the message register as it was or a message. -/
theorem State.decodeArm_cases (s : State) (cmd : Byte) (body : List Byte) :
    (∃ c, c ≠ .msg ∧ c ≠ .idle ∧ c ≠ .accum ∧ c ≠ .noise ∧ s.decodeArm cmd body = (s.endFrame c, .nothing)) ∨
    (∃ m, m.kind ≠ .none ∧ 4 ≤ bodyLen body + 1 ∧
      s.decodeArm cmd body = ({ s.endFrame .msg with msg := m }, .message)) := by
  unfold State.decodeArm
  split
  · split
    · exact .inl ⟨.ack, by simp, by simp, by simp, by simp, rfl⟩
    · exact .inl ⟨.dropFields, by simp, by simp, by simp, by simp, rfl⟩
  · split
    · unfold State.decodeRvar
      split
      · rename_i h
        simp only [rvarFits, decide_eq_true_eq] at h
        exact .inr ⟨_, by simp [State.writeMsg], by omega, rfl⟩
      · exact .inl ⟨.dropFields, by simp, by simp, by simp, by simp, rfl⟩
    · split
      · unfold State.decodeRreg
        split
        · rename_i h
          simp only [rregFits, decide_eq_true_eq] at h
          exact .inr ⟨_, by simp [State.writeMsg], by omega, rfl⟩
        · exact .inl ⟨.dropFields, by simp, by simp, by simp, by simp, rfl⟩
      · exact .inl ⟨.dropCommand, by simp, by simp, by simp, by simp, rfl⟩

/-- Running the arm that DECODE selects is executing the inbound instruction the frame decodes to. -/
theorem exec_classify (s : State) (cmd : Byte) (body : List Byte) :
    exec (classify s.cfg cmd body) s = .next (conclude (s.decodeArm cmd body)) := by
  unfold classify State.decodeArm
  by_cases h1 : cmd = s.cfg.cWreg
  · rw [if_pos h1, if_pos (Or.inl h1)]
    split <;> rfl
  rw [if_neg h1]
  by_cases h2 : cmd = s.cfg.cWvar
  · rw [if_pos h2, if_pos (Or.inr h2)]
    split <;> rfl
  rw [if_neg h2, if_neg (not_or.2 ⟨h1, h2⟩)]
  by_cases h3 : cmd = s.cfg.cRvar
  · rw [if_pos h3, if_pos h3]
    rfl
  rw [if_neg h3, if_neg h3]
  by_cases h4 : cmd = s.cfg.cRreg
  · rw [if_pos h4, if_pos h4]
    rfl
  rw [if_neg h4, if_neg h4]
  rfl

/-! ### STEP -/

theorem State.rxAppend_ok {s : State} (b : Byte) (h : s.rxOff < s.cfg.rxCap) :
    s.rxAppend b = .ok { s with rxBuf := s.rxBuf.write s.rxOff b, rxOff := s.rxOff + 1 } := by
  simp [State.rxAppend, h]

/-- The cases of what STEP does once the byte is stored. -/
theorem State.afterStore_cases (s : State) :
    (s.rxOff = 3 ∧ ∃ c, s.checkpoint = some c ∧ s.afterStore = (s.endFrame c, .nothing)) ∨
    (s.rxOff = 3 ∧ s.checkpoint = none ∧ s.afterStore = (s.setRxStatus .accum, .pending)) ∨
    (4 ≤ s.rxOff ∧ s.rxOff = 3 + (s.rxRead 2).toNat ∧ s.afterStore = s.decodeBuffer) ∨
    (s.rxOff ≠ 3 ∧ ¬(4 ≤ s.rxOff ∧ s.rxOff = 3 + (s.rxRead 2).toNat) ∧
      s.afterStore = (s.setRxStatus .accum, .pending)) := by
  unfold State.afterStore
  by_cases h3 : s.rxOff = 3
  · cases hc : s.checkpoint with
    | some c => exact .inl ⟨h3, c, rfl, by simp [h3, State.drop]⟩
    | none => exact .inr (.inl ⟨h3, rfl, by simp [h3]⟩)
  · by_cases h4 : s.rxOff ≥ 4 ∧ s.rxOff = 3 + (s.rxRead 2).toNat
    · exact .inr (.inr (.inl ⟨h4.1, h4.2, by rw [if_neg h3, if_pos h4]⟩))
    · exact .inr (.inr (.inr ⟨h3, h4, by rw [if_neg h3, if_neg h4]⟩))

/-- A code of the 3-byte checkpoint is one of the two drops it makes. -/
theorem State.checkpoint_some {s : State} {c : RxStatus} (h : s.checkpoint = some c) :
    c = .dropHeader ∨ c = .dropLength := by
  unfold State.checkpoint at h
  split at h
  · exact .inl (by simpa using h.symm)
  · split at h
    · exact .inr (by simpa using h.symm)
    · cases h

/-- A frame that passes the checkpoint has its header and a length that fits (R136, R137). -/
theorem State.checkpoint_none {s : State} (h : s.checkpoint = none) :
    s.rxRead 0 = s.cfg.h1 ∧ s.rxRead 1 = s.cfg.h2 ∧ 1 ≤ (s.rxRead 2).toNat ∧ 3 + (s.rxRead 2).toNat ≤ s.cfg.rxCap := by
  unfold State.checkpoint at h
  split at h
  · cases h
  · rename_i hh
    split at h
    · cases h
    · rename_i hl
      push Not at hh hl
      exact ⟨hh.1, hh.2, by omega, by omega⟩

/-! ### POLL -/

theorem execPoll_empty {s : State} (h : s.rxChan = []) : execPoll s = .next (s.beginPoll.setRxStatus .idle) := by
  simp [execPoll, State.chanAvail, h]

theorem execPoll_cons {s : State} {b : Byte} {rest : List Byte} (h : s.rxChan = b :: rest) :
    execPoll s = s.beginPoll.takeBytes s.beginPoll.pollTake := by
  simp [execPoll, State.chanAvail, h]

/-- A POLL off the fast path takes one byte. -/
theorem State.pollTake_slow {s : State} (h : s.cfg.fastpath = false ∨ s.rxOff ≠ 0 ∨ s.fastPre = none) :
    s.pollTake = 1 := by
  unfold State.pollTake
  rcases h with h | h | h
  · simp [h]
  · simp [h]
  · simp [h]

/-- Taking one byte is one STEP on the next byte of the channel. -/
theorem State.takeBytes_cons {s : State} {b : Byte} {rest : List Byte} (h : s.rxChan = b :: rest) (n : Nat) :
    s.takeBytes (n + 1) =
      match State.stepByte { s with rxChan := rest } b with
      | .error f => .fault f
      | .ok r => (conclude r).takeBytes n := by
  cases hs : State.stepByte { s with rxChan := rest } b <;> simp only [State.takeBytes, State.chanTake_cons h, hs]

end Sys2Proof.Machine
end

