-- ==== Sys2Proof/Laws/StepByte.lean ====
section
/-! SUPPORT. Laws/StepByte.lean: everything STEP and POLL can do, once: the five cases of STEP from a state that meets the
receive invariant, the frame a completing byte decodes, one slow-path POLL, and what a POLL leaves alone. -/

namespace Sys2Proof.Machine

open Host (Outcome)

/-- The receive half of `State.Inv`: what STEP needs and keeps. -/
structure ReceiveInv (s : State) : Prop where
  /-- R10. -/
  legal : s.cfg.Legal
  /-- R23 (e). -/
  buf : s.BufferInv
  /-- R23 (a) to (c). -/
  frame : s.FrameInv

theorem ReceiveInv.of (s : State) (h : s.Inv) : ReceiveInv s := ⟨h.1, h.2.1, h.2.2.1⟩

/-- R23 (d). -/
theorem ReceiveInv.cap {s : State} (h : ReceiveInv s) : s.rxOff < s.cfg.rxCap := by
  obtain ⟨⟨-, h7, -⟩, -, h1, h3⟩ := h
  by_cases h : 3 ≤ s.rxOff
  · have := h3 h; omega
  · omega

theorem ReceiveInv.polled {s : State} (h : ReceiveInv s) (rest) : ReceiveInv (s.polled rest) := ⟨h.legal, h.buf, h.frame⟩

theorem ReceiveInv.empty {s : State} (h : ReceiveInv s) (h0 : s.rxOff = 0) : s.rxBuf = [] :=
  Memory.eq_nil_of_read h.buf.1 fun i => h.buf.2 i (by omega)

/-- `s` with `b` stored at `rx_off` (R135). -/
def stored (s : State) (b : Byte) : State := { s with rxBuf := s.rxBuf.write s.rxOff b, rxOff := s.rxOff + 1 }

theorem stored_read {s : State} (h : ReceiveInv s) (b i) : (stored s b).rxRead i = if i = s.rxOff then b else s.rxRead i :=
  Memory.read_write h.buf.1 _ _ _

theorem stored_buf {s : State} (h : ReceiveInv s) (b) : (stored s b).BufferInv := by
  refine ⟨Memory.wf_write h.buf.1 _ _, ?_⟩
  intro i hi
  have hi : s.rxOff + 1 ≤ i := hi
  rw [stored_read h, if_neg (by omega)]
  exact h.buf.2 i (by omega)

/-- No arm of DECODE depends on what the buffer and its offset hold once the body is read out. -/
theorem State.decodeArm_buffer (s : State) (m : Memory) (o : Nat) (cmd : Byte) (body : List Byte) :
   State.decodeArm { s with rxBuf := m, rxOff := o } cmd body = s.decodeArm cmd body := by
  unfold State.decodeArm
  split
  · split <;> rfl
  · split
    · unfold State.decodeRvar; split <;> rfl
    · split
      · unfold State.decodeRreg; split <;> rfl
      · rfl

/-- The cases of STEP: noise, stored, header dropped, length dropped, frame complete. -/
theorem stepByte_cases {s : State} (h : ReceiveInv s) (b : Byte) :
   (s.rxOff = 0 ∧ b ≠ s.cfg.h1 ∧ s.stepByte b = .ok (s.setRxStatus .noise, .nothing)) ∨
   ((s.rxOff = 0 → b = s.cfg.h1) ∧
     (s.rxOff = 2 → s.rxRead 1 = s.cfg.h2 ∧ 1 ≤ b.toNat ∧ 3 + b.toNat ≤ s.cfg.rxCap) ∧
     (3 ≤ s.rxOff → s.rxOff + 1 ≠ 3 + (s.rxRead 2).toNat) ∧
     ReceiveInv ((stored s b).setRxStatus .accum) ∧
     s.stepByte b = .ok ((stored s b).setRxStatus .accum, .pending)) ∨
   (s.rxOff = 2 ∧ s.rxRead 1 ≠ s.cfg.h2 ∧ s.stepByte b = .ok (s.endFrame .dropHeader, .nothing)) ∨
   (s.rxOff = 2 ∧ s.rxRead 1 = s.cfg.h2 ∧ (b.toNat = 0 ∨ 3 + b.toNat > s.cfg.rxCap) ∧
     s.stepByte b = .ok (s.endFrame .dropLength, .nothing)) ∨
   (3 ≤ s.rxOff ∧ s.rxOff + 1 = 3 + (s.rxRead 2).toNat ∧ s.stepByte b = .ok (stored s b).decodeBuffer) := by
  by_cases hn : s.rxOff = 0 ∧ b ≠ s.cfg.h1
  · exact .inl ⟨hn.1, hn.2, by simp only [State.stepByte, if_pos hn]⟩
  right
  have hn' : s.rxOff = 0 → b = s.cfg.h1 := fun h0 => by_contra fun hb => hn ⟨h0, hb⟩
  have hstep : s.stepByte b = .ok (stored s b).afterStore := by
    simp only [State.stepByte, if_neg hn, State.rxAppend_ok b h.cap]; rfl
  have hoff : (stored s b).rxOff = s.rxOff + 1 := rfl
  have hcfg : (stored s b).cfg = s.cfg := rfl
  have hr := fun i => stored_read h b i
  have hf := h.frame
  rcases (stored s b).afterStore_cases with ⟨h3, c, hc, ha⟩ | ⟨h3, hc, ha⟩ | ⟨h4, hL, ha⟩ | ⟨h3, h4, ha⟩
  · have h2 : s.rxOff = 2 := by omega
    right
    have h0 : (stored s b).rxRead 0 = s.cfg.h1 := by rw [hr, if_neg (by omega)]; exact hf.1 (by omega)
    have h1 : (stored s b).rxRead 1 = s.rxRead 1 := by rw [hr, if_neg (by omega)]
    have h2' : (stored s b).rxRead 2 = b := by rw [hr, if_pos (by omega)]
    unfold State.checkpoint at hc
    rw [h0, h1, h2', hcfg] at hc
    split at hc
    · rename_i hx
      have : s.rxRead 1 ≠ s.cfg.h2 := by simpa using hx
      obtain rfl : c = .dropHeader := by simpa using hc.symm
      exact .inl ⟨h2, this, by rw [hstep, ha]; rfl⟩
    · rename_i hx
      have hx : s.rxRead 1 = s.cfg.h2 := by simpa using hx
      split at hc
      · rename_i hy
        obtain rfl : c = .dropLength := by simpa using hc.symm
        exact .inr (.inl ⟨h2, hx, hy, by rw [hstep, ha]; rfl⟩)
      · cases hc
  · left
    have h2 : s.rxOff = 2 := by omega
    have hck := State.checkpoint_none hc
    rw [hr, hr, hr, hcfg, if_neg (by omega), if_neg (by omega), if_pos (by omega)] at hck
    refine ⟨hn', fun _ => ⟨hck.2.1, hck.2.2⟩, fun _ => by omega, ⟨h.legal, stored_buf h b, ?_⟩, by rw [hstep, ha]⟩
    refine ⟨fun _ => ?_, fun _ => ?_⟩
    · show (stored s b).rxRead 0 = _
      rw [hr, if_neg (by omega)]; exact hck.1
    · show (stored s b).rxRead 1 = _ ∧ 1 ≤ ((stored s b).rxRead 2).toNat ∧
        3 + ((stored s b).rxRead 2).toNat ≤ s.cfg.rxCap ∧ (stored s b).rxOff < 3 + ((stored s b).rxRead 2).toNat
      rw [hr, hr, if_neg (by omega), if_pos (by omega)]
      exact ⟨hck.2.1, hck.2.2.1, hck.2.2.2, by omega⟩
  · right; right; right
    rw [hr, if_neg (by omega)] at hL
    exact ⟨by omega, by omega, by rw [hstep, ha]⟩
  · left
    have h2 : s.rxOff ≠ 2 := by omega
    have hL : 3 ≤ s.rxOff → s.rxOff + 1 ≠ 3 + (s.rxRead 2).toNat := by
      intro h3' he
      apply h4
      rw [hr, if_neg (by omega)]
      omega
    refine ⟨hn', fun h => absurd h h2, hL, ⟨h.legal, stored_buf h b, ?_⟩, by rw [hstep, ha]⟩
    refine ⟨fun _ => ?_, fun h3' => ?_⟩
    · show (stored s b).rxRead 0 = _
      rw [hr]
      split
      · exact hn' (by omega)
      · exact hf.1 (by omega)
    · have h3' : 3 ≤ s.rxOff + 1 := h3'
      have h5 := hf.2 (by omega)
      have h6 := hL (by omega)
      show (stored s b).rxRead 1 = _ ∧ 1 ≤ ((stored s b).rxRead 2).toNat ∧
        3 + ((stored s b).rxRead 2).toNat ≤ s.cfg.rxCap ∧ (stored s b).rxOff < 3 + ((stored s b).rxRead 2).toNat
      have hb : (stored s b).rxOff = s.rxOff + 1 := rfl
      rw [hr, hr, if_neg (by omega), if_neg (by omega), hb]
      exact ⟨h5.1, h5.2.1, h5.2.2.1, by omega⟩

/-- A byte that completes a frame: the buffer and that byte are a frame that fits, and DECODE runs its arm. -/
theorem decodeBuffer_stored {s : State} (h : ReceiveInv s) (b : Byte) (h3 : 3 ≤ s.rxOff)
    (hL : s.rxOff + 1 = 3 + (s.rxRead 2).toNat) :
    ∃ cmd body, bodyFits s.cfg body ∧ s.rxBytes 0 s.rxOff ++ [b] = frameBytes s.cfg cmd body ∧
      (stored s b).decodeBuffer = s.decodeArm cmd body := by
  have hr := fun i => stored_read h b i
  have hf := h.frame.2 h3
  have hlen : 1 ≤ (s.rxRead 2).toNat := hf.2.1
  have hb : s.rxBytes 0 s.rxOff ++ [b] = (stored s b).rxBytes 0 (s.rxOff + 1) := by
    simp only [State.rxBytes, List.range_succ, List.map_append, List.map_cons, List.map_nil, hr]
    congr 1
    · apply List.map_congr_left
      intro k hk
      rw [List.mem_range] at hk
      rw [if_neg (by omega)]
    · simp
  obtain ⟨n, hn⟩ : ∃ n, (s.rxRead 2).toNat = n + 1 := ⟨(s.rxRead 2).toNat - 1, by omega⟩
  have hlt := (s.rxRead 2).isLt
  refine ⟨(stored s b).rxRead 3, (stored s b).rxBytes 4 n, ?_, ?_, ?_⟩
  · simp only [bodyFits, bodyLen, State.rxBytes, List.length_map, List.length_range]; omega
  · rw [hb, show s.rxOff + 1 = 4 + n by omega]
    have e : (stored s b).rxBytes 0 (4 + n) = (stored s b).rxBytes 0 4 ++ (stored s b).rxBytes 4 n := by
      simp only [State.rxBytes, List.range_add, List.map_append, List.map_map]
      congr 1
      apply List.map_congr_left
      intro k _
      simp
    rw [e]
    simp only [frameBytes]
    congr 1
    have e4 : (stored s b).rxBytes 0 4 =
        [(stored s b).rxRead 0, (stored s b).rxRead 1, (stored s b).rxRead 2, (stored s b).rxRead 3] := rfl
    rw [e4]
    have h0 := hr 0
    have h1 := hr 1
    have h2 := hr 2
    rw [if_neg (by omega)] at h0 h1 h2
    rw [h0, h1, h2, h.frame.1 (by omega), hf.1]
    congr 3
    apply BitVec.eq_of_toNat_eq
    simp only [bodyLen, State.rxBytes, List.length_map, List.length_range, BitVec.toNat_ofNat]
    rw [hn] at hlt ⊢
    omega
  · unfold State.decodeBuffer
    have h2 := hr 2
    rw [if_neg (by omega)] at h2
    rw [h2, hn, Nat.add_sub_cancel]
    exact State.decodeArm_buffer s _ _ _ _

/-- A POLL off the fast path is one STEP. -/
theorem execPoll_slow {s : State} {b : Byte} {rest : List Byte} (hc : s.rxChan = b :: rest)
    (h : s.cfg.fastpath = false ∨ s.rxOff ≠ 0 ∨ fastPrefix s.cfg s.rxChan = none) :
    execPoll s = match State.stepByte (s.polled rest) b with
      | .error f => .fault f
      | .ok r => .next (conclude r) := by
  rw [execPoll_cons hc, State.pollTake_slow (s := s.beginPoll) h, State.takeBytes_cons (s := s.beginPoll) hc]
  have e : ({ s.beginPoll with rxChan := rest } : State) = s.polled rest := rfl
  rw [e]
  cases State.stepByte (s.polled rest) b <;> rfl

/-- No literal prefix begins with a byte other than `H1`. -/
theorem fastPrefix_ne {p : Params} {b : Byte} {rest : List Byte} (h : b ≠ p.h1) : fastPrefix p (b :: rest) = none := by
  cases hc : fastPrefix p (b :: rest) with
  | none => rfl
  | some pre =>
    obtain ⟨h1, h2, h3⟩ := fastPrefix_some hc
    obtain ⟨r, rfl, -⟩ := literalPrefixes_head h1
    simp at h3
    exact absurd h3.1 h

/-- The same parameters, channel, transmit state and host inputs. -/
def SameRest (s t : State) : Prop :=
  t.cfg = s.cfg ∧ t.rxChan = s.rxChan ∧ t.txStage = s.txStage ∧ t.txStatus = s.txStatus ∧
    t.txSeq = s.txSeq ∧ t.inbox = s.inbox

/-- What STEP leaves alone, whatever the state. -/
theorem stepByte_frame {s : State} {b : Byte} {r} (h : s.stepByte b = .ok r) :
    SameRest s (conclude r) ∧ (s.rxBuf.wf → (conclude r).rxBuf.wf) ∧
      ((conclude r).rxResult = .nothing → (conclude r).msg = s.msg ∧ s.rxResult = .nothing) := by
  have arm : ∀ (u : State) cmd body, SameRest s u → (s.rxBuf.wf → u.rxBuf.wf) → u.msg = s.msg →
     u.rxResult = s.rxResult →
     SameRest s (conclude (u.decodeArm cmd body)) ∧ (s.rxBuf.wf → (conclude (u.decodeArm cmd body)).rxBuf.wf) ∧
       ((conclude (u.decodeArm cmd body)).rxResult = .nothing →
         (conclude (u.decodeArm cmd body)).msg = s.msg ∧ s.rxResult = .nothing) := by
    intro u cmd body h1 h2 h3 h4
    rcases u.decodeArm_cases cmd body with ⟨c, _, _, _, _, hd⟩ | ⟨m, hm, _, hd⟩
    · rw [hd]; exact ⟨h1, fun _ => Memory.wf_nil, fun h => ⟨h3, h4 ▸ h⟩⟩
    · rw [hd]; exact ⟨h1, fun _ => Memory.wf_nil, fun h => by cases h⟩
  unfold State.stepByte at h
  split at h
  · obtain rfl := Except.ok.inj h
    exact ⟨⟨rfl, rfl, rfl, rfl, rfl, rfl⟩, fun h => h, fun h => ⟨rfl, h⟩⟩
  · by_cases hcap : s.rxOff < s.cfg.rxCap
    · rw [State.rxAppend_ok b hcap] at h
      obtain rfl := Except.ok.inj h
      rw [show ({ s with rxBuf := s.rxBuf.write s.rxOff b, rxOff := s.rxOff + 1 } : State) = stored s b from rfl]
      have hw : s.rxBuf.wf → (stored s b).rxBuf.wf := fun h => Memory.wf_write h _ _
      have hs : SameRest s (stored s b) := ⟨rfl, rfl, rfl, rfl, rfl, rfl⟩
      rcases (stored s b).afterStore_cases with ⟨h3, c, hc, ha⟩ | ⟨h3, hc, ha⟩ | ⟨h4, hL, ha⟩ | ⟨h3, h4, ha⟩
      · rw [ha]; exact ⟨hs, fun _ => Memory.wf_nil, fun h => ⟨rfl, h⟩⟩
      · rw [ha]; exact ⟨hs, hw, fun h => ⟨rfl, h⟩⟩
      · rw [ha]; exact arm _ _ _ hs hw rfl rfl
      · rw [ha]; exact ⟨hs, hw, fun h => ⟨rfl, h⟩⟩
    · simp only [State.rxAppend, if_neg hcap] at h; cases h

/-- What the byte loop of a POLL leaves alone, whatever the state. -/
theorem takeBytes_frame : ∀ (n : Nat) (s t : State), s.takeBytes n = .next t →
    t.cfg = s.cfg ∧ t.txStage = s.txStage ∧ t.txStatus = s.txStatus ∧ t.txSeq = s.txSeq ∧ t.inbox = s.inbox ∧
    (∃ taken, s.rxChan = taken ++ t.rxChan) ∧ (s.rxBuf.wf → t.rxBuf.wf) ∧
    (t.rxResult = .nothing → t.msg = s.msg ∧ s.rxResult = .nothing) := by
  intro n
  induction n with
  | zero =>
    intro s t h
    obtain rfl := Outcome.next.inj h
    exact ⟨rfl, rfl, rfl, rfl, rfl, ⟨[], rfl⟩, id, fun h => ⟨rfl, h⟩⟩
  | succ n ih =>
    intro s t h
    match hc : s.rxChan with
    | [] =>
      rw [State.takeBytes, State.chanTake_nil hc] at h
      obtain rfl := Outcome.next.inj h; exact ⟨rfl, rfl, rfl, rfl, rfl, ⟨[], hc.symm⟩, id, fun h => ⟨rfl, h⟩⟩
    | b :: rest =>
      rw [State.takeBytes_cons hc] at h
      cases hs : State.stepByte { s with rxChan := rest } b with
      | error f => rw [hs] at h; cases h
      | ok r =>
        rw [hs] at h
        obtain ⟨⟨c1, c2, c3, c4, c5, c6⟩, w, m⟩ := stepByte_frame hs
        obtain ⟨d1, d2, d3, d4, d5, ⟨tk, d6⟩, d7, d8⟩ := ih _ t h
        refine ⟨d1.trans c1, d2.trans c3, d3.trans c4, d4.trans c5, d5.trans c6, ⟨b :: tk, ?_⟩,
          fun hw => d7 (w hw), fun hr => ?_⟩
        · rw [c2] at d6; rw [show rest = _ from d6]; rfl
        · obtain ⟨e1, e2⟩ := d8 hr
          obtain ⟨e3, e4⟩ := m e2
          exact ⟨e1.trans e3, e4⟩

/-- What a POLL leaves alone, whatever the state. -/
theorem execPoll_frame {s t : State} (h : execPoll s = .next t) :
    t.cfg = s.cfg ∧ t.txStage = s.txStage ∧ t.txStatus = s.txStatus ∧ t.txSeq = s.txSeq ∧ t.inbox = s.inbox ∧
    (∃ taken, s.rxChan = taken ++ t.rxChan) ∧ (s.rxBuf.wf → t.rxBuf.wf) ∧ (t.rxResult = .nothing → t.msg = Msg.zero) := by
  match hc : s.rxChan with
  | [] =>
    rw [execPoll_empty hc] at h
    obtain rfl := Outcome.next.inj h
    exact ⟨rfl, rfl, rfl, rfl, rfl, ⟨[], hc.symm⟩, id, fun _ => rfl⟩
  | b :: rest =>
    rw [execPoll_cons hc] at h
    obtain ⟨d1, d2, d3, d4, d5, ⟨tk, d6⟩, d7, d8⟩ := takeBytes_frame _ _ _ h
    exact ⟨d1, d2, d3, d4, d5, ⟨tk, by rw [← hc]; exact d6⟩, d7, fun h => (d8 h).1⟩

end Sys2Proof.Machine
end

