-- ==== Sys2Proof/Laws/Transmit.lean ====
section
/-! SUPPORT. Laws/Transmit.lean: what the transmit operations do, once: emission, the staging record's frame, and the common
skeleton of a SEND. -/

namespace Sys2Proof.Machine

/-- Emitting a list of bytes appends it to `tx_seq` and changes nothing else. -/
theorem State.emitAll_eq (s : State) (f : List Byte) : s.emitAll f = { s with txSeq := s.txSeq ++ f } := by
  induction f generalizing s with
  | nil => simp [State.emitAll]
  | cons b f ih => rw [State.emitAll, ih]; simp [State.emit]

/-- The frame a write command puts on the wire: header, LEN, command byte, address field, payload. -/
def wireFrame (p : Params) (k : WriteCmd) (addr : Word) (payload : List Byte) : List Byte :=
  frameBytes p (writeCode p k) (addrBytes k addr ++ payload)

theorem addrBytes_length (k : WriteCmd) (addr : Word) : (addrBytes k addr).length = 1 ∨ (addrBytes k addr).length = 2 := by
  cases k
  · exact .inl rfl
  · exact .inr rfl

/-- The staging record holds the whole frame, for every payload that fits it. -/
theorem stageFrame_buildStage (p : Params) (k : WriteCmd) (addr : Word) {payload : List Byte}
    (h : payload.length ≤ txTextMax) :
    stageFrame k (buildStage p k addr payload) = wireFrame p k addr payload := by
  have ha := addrBytes_length k addr
  have hmax : payload.length ≤ 252 := h
  have hlen : (BitVec.ofNat 8 (1 + ((addrBytes k addr).length + payload.length))).toNat - 1 - (addrBytes k addr).length
      = payload.length := by
    simp only [BitVec.toNat_ofNat]
    omega
  simp only [stageFrame, buildStage, wireFrame, frameBytes, bodyLen, List.length_append, Nat.add_assoc, hlen,
    overlay_toList_take payload _ h, List.cons_append, List.nil_append]

/-- The common skeleton (R101): the frame is appended to `tx_seq`, the staging record is zero again, the status is SENT. -/
theorem State.transmit_eq (s : State) (k : WriteCmd) (addr : Word) {payload : List Byte}
    (h : payload.length ≤ txTextMax) :
    s.transmit k addr payload =
      { s with txSeq := s.txSeq ++ wireFrame s.cfg k addr payload, txStage := TxStage.zero, txStatus := .sent } := by
  simp only [State.transmit, State.stage_txStage, stageFrame_buildStage s.cfg k addr h, State.emitAll_eq]
  rfl

/-- Emission changes nothing but `tx_seq`, so the skeleton changes only the transmit state, whatever the payload. -/
theorem State.transmit_frame (s : State) (k : WriteCmd) (addr : Word) (payload : List Byte) :
    ∃ f, s.transmit k addr payload =
      { s with txSeq := s.txSeq ++ f, txStage := TxStage.zero, txStatus := .sent } :=
  ⟨_, by simp only [State.transmit, State.emitAll_eq]; rfl⟩

end Sys2Proof.Machine
end

