-- ==== Sys2Proof/Tests/Slice0.lean ====
section
/-! SUPPORT. Tests/Slice0.lean: tests with expected results from spec/95_test_vectors.md (T, V and R vectors, REF parameters
unless said), written out by hand from 30_encoding.md's formats where no vector fits; and, for every statement with
hypotheses, a witness that meets them. -/

namespace Sys2Proof.Tests

open Sys2Proof Sys2Proof.Machine Host

/- One theorem after another: kernel evaluations that wait for each other would each hold a thread. -/
set_option Elab.async false

/-! ### Helpers -/

/-- REF. -/
abbrev ref : Params := Params.ref

/-- REF with `FASTPATH = false`. -/
def slow : Params := { Params.ref with fastpath := false }

/-- REF with `FASTPATH = false` and `RX_CAP = 16` (V18, V18b, P4). -/
def slow16 : Params := { slow with rxCap := 16 }

/-- REF with `BYTE_IN_WORD = LOW` (T12). -/
def refLow : Params := { Params.ref with byteInWord := .low }

/-- The block after reset, with bytes accumulated and bytes in the channel. -/
def held (p : Params) (buf chan : List Byte) : State :=
  { State.resetWith p with rxBuf := storeFrom [] 0 buf, rxOff := buf.length, rxChan := chan }

/-- Whether an outcome is a next state of which `f` holds. -/
def nextIs (o : Outcome State Fault Refusal) (f : State → Bool) : Bool :=
  match o with
  | .next t => f t
  | .fault _ => false
  | .refused _ => false

/-- A SEND's outcome: the bytes appended from an empty `tx_seq`, and `tx_status`. -/
def sends (p : Params) (i : Instr) (f : List Byte) (c : TxStatus) : Bool :=
  nextIs (exec i (State.resetWith p)) fun t =>
    decide (t.txSeq = f ∧ t.txStatus = c ∧ t.txStage.len = 0 ∧ t.txStage.cmd = 0)

/-- A POLL's outcome: `rx_status`, `rx_result`, `rx_off` and how many bytes are left in the channel. -/
def polls (s : State) (c : RxStatus) (r : RxResult) (off left : Nat) : Bool :=
  nextIs (exec .poll s) fun t => decide (t.rxStatus = c ∧ t.rxResult = r ∧ t.rxOff = off ∧ t.rxChan.length = left)

/-- Whether a message is `m` with these first entries. -/
def isMsg (s : State) (k : MsgKind) (a : Word) (n : Byte) (d : List Word) : Bool :=
  decide (s.msg.kind = k ∧ s.msg.addr = a ∧ s.msg.bytelen = n ∧ s.msg.data.toList.take d.length = d)

/-- `n` copies of a byte. -/
abbrev fill (n : Nat) (b : Byte) : List Byte := List.replicate n b

/-! ### WellFormed refuses what the opcode table's "match" refuses -/

theorem test_wf_int_short_refuses_65536 : ¬ (Instr.sendWvarIntShort 0x1000 (.i32 false 0x10000)).wf ref := by decide
theorem test_wf_int_long_refuses_65535 : ¬ (Instr.sendWvarIntLong 0x1000 (.i32 false 0xFFFF)).wf ref := by decide
theorem test_wf_text_refuses_empty : ¬ (Instr.sendWvarText 0x2000 []).wf ref := by decide
theorem test_wf_text_refuses_253 : ¬ (Instr.sendWvarText 0x2000 (fill 253 0x41)).wf ref := by decide +kernel
theorem test_wf_refused_refuses_legal_request : ¬ (Instr.sendRefused ⟨.wreg, 0x03, .none⟩).wf ref := by decide
theorem test_wf_notAck_refuses_ok : ¬ (Instr.rxWriteNotAck .wreg [0x4F, 0x4B]).wf ref := by decide
theorem test_wf_notAck_refuses_long : ¬ (Instr.rxWriteNotAck .wvar (fill 255 0)).wf ref := by decide +kernel
theorem test_wf_rvar_refuses_beyond_rx_cap : ¬ (Instr.rxRvarResp (fill 13 0)).wf slow16 := by decide
theorem test_wf_rreg_refuses_long : ¬ (Instr.rxRregResp (fill 255 0)).wf ref := by decide +kernel
theorem test_wf_unknown_refuses_known_command : ¬ (Instr.rxUnknown 0x83 []).wf ref := by decide
theorem test_wf_unknown_refuses_long : ¬ (Instr.rxUnknown 0x84 (fill 255 0)).wf ref := by decide +kernel

/-! ### Decoding: every row, from a request or a frame written out from its encoding -/

/-- T1: `SEND WREG, 0x03, none` is `5A A5 02 80 03`. -/
theorem test_decode_sendWregNone :
    decodeRequest (.send ⟨.wreg, 0x03, .none⟩) = .sendWregNone 0x03 ∧
    outboundFrame ref (.sendWregNone 0x03) = some [0x5A, 0xA5, 0x02, 0x80, 0x03] := by decide

/-- T3: the address 0xFF is legal. -/
theorem test_decode_sendWregByte :
    decodeRequest (.send ⟨.wreg, 0xFF, .byte 0x5A⟩) = .sendWregByte 0xFF 0x5A ∧
    outboundFrame ref (.sendWregByte 0xFF 0x5A) = some [0x5A, 0xA5, 0x03, 0x80, 0xFF, 0x5A] := by decide

/-- T5: never long on a register. -/
theorem test_decode_sendWregInt :
    decodeRequest (.send ⟨.wreg, 0x03, .int (.i32 false 0x12345678)⟩) = .sendWregInt 0x03 (.i32 false 0x12345678) ∧
    outboundFrame ref (.sendWregInt 0x03 (.i32 false 0x12345678)) = some [0x5A, 0xA5, 0x03, 0x80, 0x03, 0x78] := by decide

/-- T10. -/
theorem test_decode_sendWvarNone :
    decodeRequest (.send ⟨.wvar, 0x1000, .none⟩) = .sendWvarNone 0x1000 ∧
    outboundFrame ref (.sendWvarNone 0x1000) = some [0x5A, 0xA5, 0x03, 0x82, 0x10, 0x00] := by decide

/-- T12, both placements. -/
theorem test_decode_sendWvarByte :
    decodeRequest (.send ⟨.wvar, 0x1000, .byte 0x41⟩) = .sendWvarByte 0x1000 0x41 ∧
    outboundFrame ref (.sendWvarByte 0x1000 0x41) = some [0x5A, 0xA5, 0x05, 0x82, 0x10, 0x00, 0x41, 0x00] ∧
    outboundFrame refLow (.sendWvarByte 0x1000 0x41) = some [0x5A, 0xA5, 0x05, 0x82, 0x10, 0x00, 0x00, 0x41] := by decide

/-- T14 and T16: 65535 and a negative integer are short. -/
theorem test_decode_sendWvarIntShort :
    decodeRequest (.send ⟨.wvar, 0x1000, .int (.i32 false 0xFFFF)⟩) = .sendWvarIntShort 0x1000 (.i32 false 0xFFFF) ∧
    decodeRequest (.send ⟨.wvar, 0x1000, .int (.i32 true 0xFFFFFFFF)⟩) = .sendWvarIntShort 0x1000 (.i32 true 0xFFFFFFFF) ∧
    outboundFrame ref (.sendWvarIntShort 0x1000 (.i32 true 0xFFFFFFFF))
      = some [0x5A, 0xA5, 0x05, 0x82, 0x10, 0x00, 0xFF, 0xFF] := by decide

/-- T23: the high word first. -/
theorem test_decode_sendWvarIntLong :
    decodeRequest (.send ⟨.wvar, 0x1000, .int (.i32 false 0x12345678)⟩) = .sendWvarIntLong 0x1000 (.i32 false 0x12345678) ∧
    outboundFrame ref (.sendWvarIntLong 0x1000 (.i32 false 0x12345678))
      = some [0x5A, 0xA5, 0x07, 0x82, 0x10, 0x00, 0x12, 0x34, 0x56, 0x78] := by decide

/-- T29: text bytes equal to the header are not escaped. -/
theorem test_decode_sendWvarText :
    decodeRequest (.send ⟨.wvar, 0x2000, .text [0x5A, 0xA5, 0x00]⟩) = .sendWvarText 0x2000 [0x5A, 0xA5, 0x00] ∧
    outboundFrame ref (.sendWvarText 0x2000 [0x5A, 0xA5, 0x00])
      = some [0x5A, 0xA5, 0x06, 0x82, 0x20, 0x00, 0x5A, 0xA5, 0x00] := by decide

/-- T25. -/
theorem test_decode_sendWvarTextEmpty :
    decodeRequest (.send ⟨.wvar, 0x2000, .text []⟩) = .sendWvarTextEmpty 0x2000 := by decide

/-- T7, T9 (case 3 before the no-op), T30, T31: one request of each of the first three cases. -/
theorem test_decode_sendRefused :
    ([⟨.wreg, 0x100, .none⟩, ⟨.wreg, 0x03, .text []⟩, ⟨.rvar, 0x1000, .none⟩, ⟨.rreg, 0x03, .none⟩] : List SendRequest).all
      (fun q => decide (decodeRequest (.send q) = .sendRefused q)) = true := by decide

/-- T27: case 4, 253 bytes of text. -/
theorem test_decode_sendRefused_text_253 :
    decodeRequest (.send ⟨.wvar, 0x2000, .text (fill 253 0x41)⟩)
      = .sendRefused ⟨.wvar, 0x2000, .text (fill 253 0x41)⟩ := by
  decide +kernel

/-- V11: `5A A5 03 80 4F 4B`, as the bits of the opcode table's numbering. -/
theorem test_decode_rxAckWreg : decodeTableWord 48 0x4B4F8003A55A = some .rxAckWreg := by decide +kernel

/-- V10: `5A A5 03 82 4F 4B`. -/
theorem test_decode_rxAckWvar : decodeTableWord 48 0x4B4F8203A55A = some .rxAckWvar := by decide +kernel

/-- V12: `5A A5 03 82 4F 4C`. -/
theorem test_decode_rxWriteNotAck :
    decodeTableWord 48 0x4C4F8203A55A = some (.rxWriteNotAck .wvar [0x4F, 0x4C]) := by decide +kernel

/-- V1: `5A A5 06 83 10 00 01 00 2A`. -/
theorem test_decode_rxRvarResp :
    decodeTableWord 72 0x2A000100108306A55A = some (.rxRvarResp [0x10, 0x00, 0x01, 0x00, 0x2A]) := by decide +kernel

/-- V8: `5A A5 05 81 03 02 00 05`. -/
theorem test_decode_rxRregResp :
    decodeTableWord 64 0x050002038105A55A = some (.rxRregResp [0x03, 0x02, 0x00, 0x05]) := by decide +kernel

/-- V14: `5A A5 03 84 00 00`, whose last two bytes the numbering may leave out. -/
theorem test_decode_rxUnknown :
    decodeTableWord 48 0x00008403A55A = some (.rxUnknown 0x84 [0x00, 0x00]) ∧
    decodeTableWord 32 0x8403A55A = some (.rxUnknown 0x84 [0x00, 0x00]) := by decide +kernel

/-- The two requests without operands (R2, R130, R190). -/
theorem test_decode_poll_and_reset : decodeRequest .poll = .poll ∧ decodeRequest .reset = .reset := by decide

/-- V16, V17, V18 and a truncated frame: refused by name (R136, R137, R87). -/
theorem test_decode_refuses_by_name :
    decodeFrame ref [0x5A, 0x00, 0x06] = .error .badHeader ∧
    decodeFrame ref [0x5A, 0xA5, 0x00, 0x83] = .error .badLength ∧
    decodeFrame slow16 [0x5A, 0xA5, 0x0E, 0x83] = .error .badLength ∧
    decodeFrame ref [0x5A, 0xA5, 0x06, 0x83, 0x10] = .error .notComplete ∧
    decodeFrame ref [] = .error .notComplete ∧
    decodeTableWord 0 0 = none := by decide +kernel

/-! ### One step of each row -/

/-- T1. -/
theorem test_exec_sendWregNone : sends ref (.sendWregNone 0x03) [0x5A, 0xA5, 0x02, 0x80, 0x03] .sent = true := by
  decide +kernel

/-- T2. -/
theorem test_exec_sendWregByte : sends ref (.sendWregByte 0x03 0x01) [0x5A, 0xA5, 0x03, 0x80, 0x03, 0x01] .sent = true := by
  decide +kernel

/-- T6: `s16(-1)`. -/
theorem test_exec_sendWregInt :
    sends ref (.sendWregInt 0x03 (.i16 true 0xFFFF)) [0x5A, 0xA5, 0x03, 0x80, 0x03, 0xFF] .sent = true := by decide +kernel

/-- T11. -/
theorem test_exec_sendWvarNone : sends ref (.sendWvarNone 0xFFFF) [0x5A, 0xA5, 0x03, 0x82, 0xFF, 0xFF] .sent = true := by
  decide +kernel

/-- T12, both placements. -/
theorem test_exec_sendWvarByte :
    sends ref (.sendWvarByte 0x1000 0x41) [0x5A, 0xA5, 0x05, 0x82, 0x10, 0x00, 0x41, 0x00] .sent = true ∧
    sends refLow (.sendWvarByte 0x1000 0x41) [0x5A, 0xA5, 0x05, 0x82, 0x10, 0x00, 0x00, 0x41] .sent = true := by
  decide +kernel

/-- T18: `s32(-70000)`, the low 16 bits. -/
theorem test_exec_sendWvarIntShort :
    sends ref (.sendWvarIntShort 0x1000 (.i32 true (BitVec.ofInt 32 (-70000))))
      [0x5A, 0xA5, 0x05, 0x82, 0x10, 0x00, 0xEE, 0x90] .sent = true := by decide +kernel

/-- T15: 65536 is long. -/
theorem test_exec_sendWvarIntLong :
    sends ref (.sendWvarIntLong 0x1000 (.i32 false 0x10000))
      [0x5A, 0xA5, 0x07, 0x82, 0x10, 0x00, 0x00, 0x01, 0x00, 0x00] .sent = true := by decide +kernel

/-- T24. -/
theorem test_exec_sendWvarText :
    sends ref (.sendWvarText 0x2000 [0x41, 0x42]) [0x5A, 0xA5, 0x05, 0x82, 0x20, 0x00, 0x41, 0x42] .sent = true := by
  decide +kernel

/-- T26: the longest text, LEN = FF. -/
theorem test_exec_sendWvarText_252 :
    sends ref (.sendWvarText 0x2000 (fill 252 0x41)) ([0x5A, 0xA5, 0xFF, 0x82, 0x20, 0x00] ++ fill 252 0x41) .sent = true := by
  decide +kernel

/-- T25. -/
theorem test_exec_sendWvarTextEmpty : sends ref (.sendWvarTextEmpty 0x2000) [] .noop = true := by decide +kernel

/-- T8. -/
theorem test_exec_sendRefused : sends ref (.sendRefused ⟨.wreg, 0x03, .text [0x41]⟩) [] .reject = true := by decide +kernel

/-- V11, its last byte: the acknowledgement is swallowed. -/
theorem test_exec_rxAckWreg :
    polls (held slow [0x5A, 0xA5, 0x03, 0x80, 0x4F] [0x4B]) .ack .nothing 0 0 = true := by decide +kernel

/-- V10, its last byte. -/
theorem test_exec_rxAckWvar :
    polls (held slow [0x5A, 0xA5, 0x03, 0x82, 0x4F] [0x4B]) .ack .nothing 0 0 = true := by decide +kernel

/-- V12 and V13, the last byte: no acknowledgement. -/
theorem test_exec_rxWriteNotAck :
    polls (held slow [0x5A, 0xA5, 0x03, 0x82, 0x4F] [0x4C]) .dropFields .nothing 0 0 = true ∧
    polls (held slow [0x5A, 0xA5, 0x05, 0x82, 0x10, 0x00, 0x4F] [0x4B]) .dropFields .nothing 0 0 = true := by decide +kernel

/-- V4, its last byte: an odd byte length of 3 gives two words. -/
theorem test_exec_rxRvarResp :
    nextIs (exec .poll (held slow [0x5A, 0xA5, 0x08, 0x83, 0x10, 0x00, 0x03, 0xAA, 0xBB, 0xCC] [0xDD]))
      (fun t => isMsg t .rvarResp 0x1000 3 [0xAABB, 0xCCDD, 0x0000] && decide (t.rxResult = .received)) = true := by
  decide +kernel

/-- V5 and V6, the last byte: LEN too short for the fields. -/
theorem test_exec_rxRvarResp_short :
    polls (held slow [0x5A, 0xA5, 0x06, 0x83, 0x10, 0x00, 0x03, 0xAA] [0xBB]) .dropFields .nothing 0 0 = true ∧
    polls (held slow [0x5A, 0xA5, 0x03, 0x83, 0x10] [0x00]) .dropFields .nothing 0 0 = true := by decide +kernel

/-- V8, its last byte. -/
theorem test_exec_rxRregResp :
    nextIs (exec .poll (held slow [0x5A, 0xA5, 0x05, 0x81, 0x03, 0x02, 0x00] [0x05]))
      (fun t => isMsg t .rregResp 0x0003 2 [0x0000, 0x0005, 0x0000] && decide (t.rxResult = .received)) = true := by
  decide +kernel

/-- V9 and V9b, the last byte. -/
theorem test_exec_rxRregResp_short :
    polls (held slow [0x5A, 0xA5, 0x04, 0x81, 0x03, 0x02] [0x00]) .dropFields .nothing 0 0 = true ∧
    polls (held slow [0x5A, 0xA5, 0x02, 0x81] [0x07]) .dropFields .nothing 0 0 = true := by decide +kernel

/-- V14, its last byte. -/
theorem test_exec_rxUnknown :
    polls (held slow [0x5A, 0xA5, 0x03, 0x84, 0x00] [0x00]) .dropCommand .nothing 0 0 = true := by decide +kernel

/-- V15, V16, V17 and V18, the last byte of each: NOISE and the drops of the checkpoint; V18b's LEN fits exactly. -/
theorem test_exec_poll_slow :
    polls (held slow [] [0x00]) .noise .nothing 0 0 = true ∧
    polls (held slow [0x5A, 0x00] [0x06]) .dropHeader .nothing 0 0 = true ∧
    polls (held slow [0x5A, 0xA5] [0x00]) .dropLength .nothing 0 0 = true ∧
    polls (held slow16 [0x5A, 0xA5] [0x0E, 0x83]) .dropLength .nothing 0 1 = true ∧
    polls (held slow16 [0x5A, 0xA5] [0x0D, 0x83]) .accum .nothing 3 1 = true := by decide +kernel

/-- V1, V3 and V27, the first POLL (P4, P2, P3), V28's first, and P3's first (no prefix). -/
theorem test_exec_poll_fast :
    polls (held ref [] [0x5A, 0xA5, 0x06, 0x83, 0x10]) .accum .nothing 4 1 = true ∧
    polls (held ref [] [0x5A, 0xA5, 0x08, 0x83]) .accum .nothing 2 2 = true ∧
    polls (held ref [] [0x5A, 0xA5, 0x06]) .accum .nothing 3 0 = true ∧
    polls (held ref [0x5A] [0x5A, 0xA5, 0x06, 0x83]) .accum .nothing 2 3 = true ∧
    polls (held ref [] [0x5A, 0x00, 0x06]) .accum .nothing 1 2 = true := by decide +kernel

/-- R-2, R-3 and R-4: the partial frame is gone, the channel and what was emitted stay. -/
theorem test_exec_reset :
    nextIs (exec .reset { held slow [0x5A, 0xA5] [0x06] with txStatus := .reject, txSeq := [0x5A] })
      (fun t => decide (t.rxBuf = [] ∧ t.rxOff = 0 ∧ t.txStatus = .idle ∧ t.rxChan = [0x06] ∧ t.txSeq = [0x5A])) = true := by
  decide +kernel

/-! ### A step of the machine -/

/-- V1, as its bits: the next step after reset runs it. -/
theorem test_step_runs_placed_frame :
    nextIs (step (State.reset.withFetchWord 72 0x2A000100108306A55A))
      (fun t => isMsg t .rvarResp 0x1000 1 [0x002A] && decide (t.rxOff = 0 ∧ t.inbox = [])) = true := by decide +kernel

/-- T10 as the host's next request. -/
theorem test_step_runs_request :
    nextIs (step { State.reset with inbox := [.request (.send ⟨.wvar, 0x1000, .none⟩), .deliver [0x5A]] })
      (fun t => decide (t.txSeq = [0x5A, 0xA5, 0x03, 0x82, 0x10, 0x00] ∧ t.inbox = [.deliver [0x5A]])) = true := by
  decide +kernel

/-- `core` steps as `step` does. -/
theorem test_core_delivers :
    nextIs (core.step { State.reset with rxChan := [0x5A], inbox := [.deliver [0xA5, 0x06]] })
      (fun t => decide (t.rxChan = [0x5A, 0xA5, 0x06] ∧ t.inbox = [])) = true := by decide +kernel

/-! ### States that meet the invariant -/

theorem read_of_beyond {m : Memory} {a : Nat} (h : ∀ c ∈ m, c.1 ≠ a) : m.read a = unlisted := by
  induction m with
  | nil => rfl
  | cons c m ih =>
    rw [Memory.read, if_neg (h c (by simp))]
    exact ih fun d hd => h d (List.mem_cons_of_mem c hd)

/-- A buffer that R23 admits. -/
abbrev admitted (p : Params) (buf : List Byte) : Prop :=
  (1 ≤ buf.length → buf.getD 0 0 = p.h1) ∧
  (3 ≤ buf.length → buf.getD 1 0 = p.h2 ∧ 1 ≤ (buf.getD 2 0).toNat ∧ 3 + (buf.getD 2 0).toNat ≤ p.rxCap ∧
    buf.length < 3 + (buf.getD 2 0).toNat)

theorem held_inv {p : Params} {buf : List Byte} (chan : List Byte) (hp : p.Legal) (h : admitted p buf) :
    (held p buf chan).Inv := by
  have hread : ∀ i, (held p buf chan).rxRead i = buf.getD i 0 := by
    intro i
    show Memory.read (storeFrom [] 0 buf) i = _
    rw [storeFrom_read Memory.wf_nil]
    by_cases hi : i < buf.length
    · rw [if_pos ⟨by omega, by omega⟩, Nat.sub_zero]
    · rw [if_neg (by omega), List.getD_eq_default _ _ (by omega)]
      rfl
  refine ⟨hp, ⟨storeFrom_wf Memory.wf_nil _ _, fun i hi => ?_⟩, ⟨fun hi => ?_, fun hi => ?_⟩, ?_, rfl⟩
  · rw [hread, List.getD_eq_default _ _ hi]
  · rw [hread]
    exact h.1 hi
  · rw [hread, hread]
    exact h.2 hi
  · exact ⟨by simp [held, State.resetWith, Msg.zero], by simp [held, State.resetWith], fun _ => rfl⟩

/-! ### Witnesses: for each statement with hypotheses, operands and states that meet them, clause by clause -/

theorem ref_legal : ref.Legal := by decide
theorem slow_legal : slow.Legal := by decide
theorem slow16_legal : slow16.Legal := by decide

/-- V8b as a term: a read-register response of no bytes. -/
theorem witness_DecodeInvertsEncode :
    ref.Legal ∧ (Instr.rxRregResp [0x07, 0x00]).wf ref ∧ (Instr.sendWvarIntLong 0x1000 (.i32 false 0x10000)).wf ref := by
  decide

theorem witness_EncodeInvertsDecode :
    decode ref (.frame [0x5A, 0xA5, 0x01, 0x83]) = .ok (.rxRvarResp []) ∧
    decode ref (.request (.send ⟨.wreg, 0xFF, .none⟩)) = .ok (.sendWregNone 0xFF) := by decide

/-- One command byte and body for each of the seven clauses. -/
theorem witness_CommandByteSelectsOneRow :
    ref.Legal ∧
    classify ref 0x80 [0x4F, 0x4B] = .rxAckWreg ∧ classify ref 0x80 [0x4F] = .rxWriteNotAck .wreg [0x4F] ∧
    classify ref 0x82 [0x4F, 0x4B] = .rxAckWvar ∧ classify ref 0x82 [] = .rxWriteNotAck .wvar [] ∧
    classify ref 0x83 [0x4F, 0x4B] = .rxRvarResp [0x4F, 0x4B] ∧ classify ref 0x81 [] = .rxRregResp [] ∧
    classify ref 0x84 [] = .rxUnknown 0x84 [] := by decide

/-- The shortest frame (V19), the longest register response (V8c's lengths), and a variable response of 125 words. -/
theorem witness_AcceptedFrameLengths :
    ref.Legal ∧
    decodeFrame ref [0x5A, 0xA5, 0x01, 0x83] = .ok (.rxRvarResp []) ∧
    (decodeFrame ref ([0x5A, 0xA5, 0xFF, 0x81, 0x01, 0xFC] ++ fill 252 0) = .ok (.rxRregResp (0x01 :: 0xFC :: fill 252 0)) ∧
      rregFits (0x01 :: 0xFC :: fill 252 0) = true) ∧
    (decodeFrame ref ([0x5A, 0xA5, 0xFE, 0x83, 0x10, 0x00, 0xFA] ++ fill 250 0)
        = .ok (.rxRvarResp (0x10 :: 0x00 :: 0xFA :: fill 250 0)) ∧
      rvarFits (0x10 :: 0x00 :: 0xFA :: fill 250 0) = true) := by decide +kernel

theorem witness_SendPutsItsFrameOnTheWire :
    (Instr.sendWvarText 0x2000 (fill 252 0x41)).wf (State.resetWith ref).cfg ∧
    outboundFrame (State.resetWith ref).cfg (.sendWvarText 0x2000 (fill 252 0x41))
      = some ([0x5A, 0xA5, 0xFF, 0x82, 0x20, 0x00] ++ fill 252 0x41) := by decide +kernel

/-- The least address that is refused, and a form for the smallest LEN. -/
theorem witness_WriteRegisterRequests :
    (0x100 : Word).toNat > 0xFF ∧ (Instr.sendWregNone 0x03).wf ref ∧
    outboundFrame ref (.sendWregNone 0x03) = some [0x5A, 0xA5, 0x02, 0x80, 0x03] := by decide

theorem witness_WriteVariableNoneAndByte :
    (State.resetWith ref).cfg.byteInWord = .high ∧ (State.resetWith refLow).cfg.byteInWord = .low := by decide

/-- T15 and T14, the two sides of the threshold, a negative integer (T18), and the largest 16-bit one. -/
theorem witness_WriteVariableIntegers :
    (((0x10000 : DWord).toNat : Int) > 65535 ∧
      ((0x00010000 : DWord).toNat : Int) = ((0x10000 : DWord).toNat : Int) % 2 ^ 32) ∧
    (((0xFFFF : DWord).toNat : Int) ≤ 65535 ∧ ((0xFFFF : Word).toNat : Int) = ((0xFFFF : DWord).toNat : Int) % 2 ^ 16) ∧
    ((BitVec.ofInt 32 (-70000)).toInt ≤ 65535 ∧
      ((0xEE90 : Word).toNat : Int) = (BitVec.ofInt 32 (-70000)).toInt % 2 ^ 16) ∧
    ((0xFFFF : Word).toNat : Int) ≤ 65535 := by decide

theorem witness_WriteVariableText :
    ([] : List Byte).length = 0 ∧ (1 ≤ (fill 1 0x5A).length ∧ (fill 1 0x5A).length ≤ 252) ∧
    (1 ≤ (fill 252 0x5A).length ∧ (fill 252 0x5A).length ≤ 252) ∧ (fill 253 0x5A).length > 252 := by decide +kernel

/-- A request of each of R110's cases, at the boundary, and the nearest one that is not refused. -/
theorem witness_RefusedRequestsExactly :
    decodeRequest (.send ⟨.rvar, 0x1000, .none⟩) = .sendRefused ⟨.rvar, 0x1000, .none⟩ ∧
    decodeRequest (.send ⟨.wreg, 0x100, .none⟩) = .sendRefused ⟨.wreg, 0x100, .none⟩ ∧
    decodeRequest (.send ⟨.wreg, 0xFF, .none⟩) = .sendWregNone 0xFF ∧
    decodeRequest (.send ⟨.wreg, 0x03, .text []⟩) = .sendRefused ⟨.wreg, 0x03, .text []⟩ ∧
    decodeRequest (.send ⟨.wvar, 0x2000, .text (fill 253 0)⟩) = .sendRefused ⟨.wvar, 0x2000, .text (fill 253 0)⟩ ∧
    decodeRequest (.send ⟨.wvar, 0x2000, .text (fill 252 0)⟩) = .sendWvarText 0x2000 (fill 252 0) := by decide +kernel

theorem witness_EverySendEmitsOneHeadedFrameOrNothing : (State.resetWith ref).txStage = TxStage.zero := rfl

/-- V6 (LEN 3), V5 (LEN 6, W = 2), and V7 (LEN 4, no words), the least that is accepted. -/
theorem witness_ReadVariableResponse :
    1 + ([0x10, 0x00] : List Byte).length < 4 ∧
    (1 + ([0x10, 0x00, 0x03, 0xAA, 0xBB] : List Byte).length
      < 4 + 2 * ((((frameBytes ref ref.cRvar [0x10, 0x00, 0x03, 0xAA, 0xBB]).getD 6 0).toNat + 1) / 2)) ∧
    (4 ≤ 1 + ([0x10, 0x00, 0x00] : List Byte).length ∧
      4 + 2 * ((((frameBytes ref ref.cRvar [0x10, 0x00, 0x00]).getD 6 0).toNat + 1) / 2)
        ≤ 1 + ([0x10, 0x00, 0x00] : List Byte).length) := by decide

/-- V9b (LEN 2), V9 (LEN 4, BL 2), and V8b (LEN 3, BL 0). -/
theorem witness_ReadRegisterResponse :
    1 + ([0x07] : List Byte).length < 3 ∧
    1 + ([0x03, 0x02, 0x00] : List Byte).length
      < 3 + ((frameBytes ref ref.cRreg [0x03, 0x02, 0x00]).getD 5 0).toNat ∧
    (3 ≤ 1 + ([0x07, 0x00] : List Byte).length ∧
      3 + ((frameBytes ref ref.cRreg [0x07, 0x00]).getD 5 0).toNat ≤ 1 + ([0x07, 0x00] : List Byte).length) := by decide

theorem witness_PollOfEmptyChannelIsIdle : (held slow [0x5A, 0xA5, 0x06] []).rxChan = [] := rfl

/-- V15 on either path. -/
theorem witness_NoiseIsDiscarded :
    (held ref [] [0x00]).rxOff = 0 ∧ (held ref [] [0x00]).rxChan = [0x00] ∧ (0x00 : Byte) ≠ ref.h1 := by decide

/-- An empty buffer off the fast path and on it without a prefix, one byte held (V28), and the last byte but one of V19's
neighbour with LEN 2. -/
theorem witness_PollStoresOneByte :
    ((held slow [] [0x5A]).Inv ∧ slow.fastpath = false ∧ (0x5A : Byte) = slow.h1) ∧
    ((held ref [] [0x5A]).Inv ∧ fastPrefix ref [0x5A] = none ∧ (0x5A : Byte) = ref.h1) ∧
    ((held ref [0x5A] [0x5A]).Inv ∧ (held ref [0x5A] [0x5A]).rxOff = 1) ∧
    ((held ref [0x5A, 0xA5, 0x02] [0x83]).Inv ∧ (held ref [0x5A, 0xA5, 0x02] [0x83]).rxOff = 3 ∧
      3 + 1 ≠ 3 + ((held ref [0x5A, 0xA5, 0x02] [0x83]).rxRead 2).toNat) :=
  ⟨⟨held_inv _ slow_legal (by decide), by decide⟩, ⟨held_inv _ ref_legal (by decide), by decide⟩,
    ⟨held_inv _ ref_legal (by decide), by decide⟩, ⟨held_inv _ ref_legal (by decide), by decide⟩⟩

/-- V16; V17 and V18, the two ends of the dropped lengths; 1 and V18b's 13, the two ends of the accepted ones. -/
theorem witness_ThreeByteCheckpoint :
    ((held slow16 [0x5A, 0x00] [0x06]).Inv ∧ (held slow16 [0x5A, 0x00] [0x06]).rxOff = 2 ∧
      (held slow16 [0x5A, 0x00] [0x06]).rxRead 1 ≠ slow16.h2) ∧
    (∀ b : Byte, (held slow16 [0x5A, 0xA5] [b]).Inv ∧ (held slow16 [0x5A, 0xA5] [b]).rxOff = 2 ∧
      (held slow16 [0x5A, 0xA5] [b]).rxRead 1 = slow16.h2) ∧
    (0x00 : Byte).toNat = 0 ∧ 3 + (0x0E : Byte).toNat > slow16.rxCap ∧
    (1 ≤ (0x01 : Byte).toNat ∧ 3 + (0x01 : Byte).toNat ≤ slow16.rxCap) ∧
    (1 ≤ (0x0D : Byte).toNat ∧ 3 + (0x0D : Byte).toNat ≤ slow16.rxCap) :=
  ⟨⟨held_inv _ slow16_legal (by decide), by decide⟩,
    fun _ => ⟨held_inv _ slow16_legal (by decide), rfl, rfl⟩, by decide⟩

/-- V19's last byte (`rx_off = 3`) and V1's (`rx_off = 8`). -/
theorem witness_PollRunsTheDecodedFrame :
    ((held slow [0x5A, 0xA5, 0x01] [0x83]).Inv ∧ (held slow [0x5A, 0xA5, 0x01] [0x83]).rxOff = 3 ∧
      3 + 1 = 3 + ((held slow [0x5A, 0xA5, 0x01] [0x83]).rxRead 2).toNat) ∧
    ((held ref [0x5A, 0xA5, 0x06, 0x83, 0x10, 0x00, 0x01, 0x00] [0x2A]).Inv ∧
      8 + 1 = 3 + ((held ref [0x5A, 0xA5, 0x06, 0x83, 0x10, 0x00, 0x01, 0x00] [0x2A]).rxRead 2).toNat) :=
  ⟨⟨held_inv _ slow_legal (by decide), by decide⟩, ⟨held_inv _ ref_legal (by decide), by decide⟩⟩

/-- The statement's hypotheses on a buffer and its last byte. -/
abbrev completes (buf : List Byte) (b : Byte) (L : Nat) : Prop :=
  3 ≤ (held slow buf [b]).rxOff ∧ L = ((held slow buf [b]).rxRead 2).toNat ∧ (held slow buf [b]).rxOff + 1 = 3 + L ∧
    (held slow buf [b]).rxBytes 0 (held slow buf [b]).rxOff ++ [b] = buf ++ [b]

/-- V10 (the acknowledgement), V12 (another body), V13 (another LEN), V14 (an unknown command), last bytes. -/
theorem witness_PollSwallowsOrDropsTheFrame :
    ((held slow [0x5A, 0xA5, 0x03, 0x82, 0x4F] [0x4B]).Inv ∧ completes [0x5A, 0xA5, 0x03, 0x82, 0x4F] 0x4B 3) ∧
    ((held slow [0x5A, 0xA5, 0x03, 0x82, 0x4F] [0x4C]).Inv ∧ completes [0x5A, 0xA5, 0x03, 0x82, 0x4F] 0x4C 3 ∧
      (0x4C : Byte) ≠ ok1) ∧
    ((held slow [0x5A, 0xA5, 0x05, 0x82, 0x10, 0x00, 0x4F] [0x4B]).Inv ∧
      completes [0x5A, 0xA5, 0x05, 0x82, 0x10, 0x00, 0x4F] 0x4B 5) ∧
    ((held slow [0x5A, 0xA5, 0x03, 0x84, 0x00] [0x00]).Inv ∧ completes [0x5A, 0xA5, 0x03, 0x84, 0x00] 0x00 3 ∧
      (0x84 : Byte) ∉ [slow.cWreg, slow.cRreg, slow.cWvar, slow.cRvar]) :=
  ⟨⟨held_inv _ slow_legal (by decide), by decide⟩, ⟨held_inv _ slow_legal (by decide), by decide⟩,
    ⟨held_inv _ slow_legal (by decide), by decide⟩, ⟨held_inv _ slow_legal (by decide), by decide⟩⟩

/-- V6 (LEN 3), V5 (W = 2 in LEN 6) and V7 (LEN 4, no words), last bytes. -/
theorem witness_PollDecodesVariableResponse :
    ((held slow [0x5A, 0xA5, 0x03, 0x83, 0x10] [0x00]).Inv ∧ completes [0x5A, 0xA5, 0x03, 0x83, 0x10] 0x00 3) ∧
    ((held slow [0x5A, 0xA5, 0x06, 0x83, 0x10, 0x00, 0x03, 0xAA] [0xBB]).Inv ∧
      completes [0x5A, 0xA5, 0x06, 0x83, 0x10, 0x00, 0x03, 0xAA] 0xBB 6 ∧ 6 < 4 + 2 * ((0x03 + 1) / 2)) ∧
    ((held slow [0x5A, 0xA5, 0x04, 0x83, 0x10, 0x00] [0x00]).Inv ∧
      completes [0x5A, 0xA5, 0x04, 0x83, 0x10, 0x00] 0x00 4 ∧ 4 + 2 * ((0x00 + 1) / 2) ≤ 4) :=
  ⟨⟨held_inv _ slow_legal (by decide), by decide⟩, ⟨held_inv _ slow_legal (by decide), by decide⟩,
    ⟨held_inv _ slow_legal (by decide), by decide⟩⟩

/-- V9b (LEN 2), V9 (BL 2 in LEN 4) and V8b (LEN 3, no bytes), last bytes. -/
theorem witness_PollDecodesRegisterResponse :
    ((held slow [0x5A, 0xA5, 0x02, 0x81] [0x07]).Inv ∧ completes [0x5A, 0xA5, 0x02, 0x81] 0x07 2) ∧
    ((held slow [0x5A, 0xA5, 0x04, 0x81, 0x03, 0x02] [0x00]).Inv ∧
      completes [0x5A, 0xA5, 0x04, 0x81, 0x03, 0x02] 0x00 4 ∧ 4 < 3 + 0x02) ∧
    ((held slow [0x5A, 0xA5, 0x03, 0x81, 0x07] [0x00]).Inv ∧ completes [0x5A, 0xA5, 0x03, 0x81, 0x07] 0x00 3 ∧
      3 + 0x00 ≤ 3) :=
  ⟨⟨held_inv _ slow_legal (by decide), by decide⟩, ⟨held_inv _ slow_legal (by decide), by decide⟩,
    ⟨held_inv _ slow_legal (by decide), by decide⟩⟩

theorem witness_LenBytesAreConsumedThenDecoded :
    (held ref [0x5A, 0xA5, 0x01] [0x83]).Inv ∧ (held ref [0x5A, 0xA5, 0x01] [0x83]).rxOff = 3 ∧
    (held ref [0x5A, 0xA5, 0x01] [0x83]).rxChan = [0x83] ++ [] ∧
    ([0x83] : List Byte).length = ((held ref [0x5A, 0xA5, 0x01] [0x83]).rxRead 2).toNat :=
  ⟨held_inv _ ref_legal (by decide), by decide⟩

/-- A channel for each clause: P4 wholly there (V1), P3 (V27), P2 (V10), none (V16). -/
theorem witness_FastPathTakesTheLongestPrefix :
    (∀ chan, (held ref [] chan).Inv ∧ (held ref [] chan).cfg.fastpath = true ∧ (held ref [] chan).rxOff = 0) ∧
    [0x5A, 0xA5, 0x06, 0x83] <+: ([0x5A, 0xA5, 0x06, 0x83] : List Byte) ∧
    (¬ [0x5A, 0xA5, 0x06, 0x83] <+: ([0x5A, 0xA5, 0x06] : List Byte) ∧
      [0x5A, 0xA5, 0x06] <+: ([0x5A, 0xA5, 0x06] : List Byte)) ∧
    (¬ [0x5A, 0xA5, 0x06] <+: ([0x5A, 0xA5, 0x03] : List Byte) ∧ [0x5A, 0xA5] <+: ([0x5A, 0xA5, 0x03] : List Byte)) ∧
    ¬ [0x5A, 0xA5] <+: ([0x5A, 0x00, 0x06] : List Byte) ∧
    fastPrefix ref [0x5A, 0xA5, 0x06] = some [0x5A, 0xA5, 0x06] :=
  ⟨fun _ => ⟨held_inv _ ref_legal (by decide), rfl, rfl⟩, by decide⟩

/-- One state on each path, with bytes to take. -/
theorem witness_PollCompletesTakingAtMostFourBytes :
    ((held ref [] [0x5A, 0xA5, 0x06, 0x83]).Inv ∧ (held ref [] [0x5A, 0xA5, 0x06, 0x83]).rxChan ≠ []) ∧
    ((held slow [0x5A] [0xA5]).Inv ∧ slow.fastpath = false) :=
  ⟨⟨held_inv _ ref_legal (by decide), by decide⟩, ⟨held_inv _ slow_legal (by decide), by decide⟩⟩

theorem witness_FastPathEqualsSlowPath :
    (held ref [] [0x5A, 0xA5, 0x06, 0x83, 0x10, 0x00, 0x01, 0x00, 0x2A]).Inv := held_inv _ ref_legal (by decide)

/-- V1's last byte, V15's, and a channel without `H1`. -/
theorem witness_FramingRobustness :
    ((held slow [0x5A, 0xA5, 0x06, 0x83, 0x10, 0x00, 0x01, 0x00] [0x2A]).Inv ∧
      polls (held slow [0x5A, 0xA5, 0x06, 0x83, 0x10, 0x00, 0x01, 0x00] [0x2A]) .msg .received 0 0 = true) ∧
    ((held ref [] [0x00, 0xA5]).Inv ∧ (held ref [] [0x00, 0xA5]).rxOff = 0 ∧ (0x00 : Byte) ≠ ref.h1 ∧
      ref.h1 ∉ (held ref [] [0x00, 0xA5]).rxChan) :=
  ⟨⟨held_inv _ slow_legal (by decide), by decide +kernel⟩, ⟨held_inv _ ref_legal (by decide), by decide⟩⟩

/-- V10 on either path. -/
theorem witness_FrameIsConsumedByItsPolls :
    (∀ p ∈ [ref, slow], (held p [] [0x5A, 0xA5, 0x03, 0x82, 0x4F, 0x4B]).Inv ∧ Instr.rxAckWvar.wf p ∧
      encode p .rxAckWvar = .frame [0x5A, 0xA5, 0x03, 0x82, 0x4F, 0x4B]) ∧ Instr.rxAckWvar.isInbound = true := by
  refine ⟨fun p hp => ?_, rfl⟩
  rcases List.mem_pair.1 hp with rfl | rfl
  · exact ⟨held_inv _ ref_legal (by decide), by decide⟩
  · exact ⟨held_inv _ slow_legal (by decide), by decide⟩

/-- V16's last byte, and V20's noise before an acknowledgement. -/
theorem witness_ImplicitResynchronization :
    ((held slow [0x5A, 0x00] [0x06]).Inv ∧ polls (held slow [0x5A, 0x00] [0x06]) .dropHeader .nothing 0 0 = true) ∧
    ((held ref [] [0xA5, 0x5A, 0xA5]).Inv ∧ (held ref [] [0xA5, 0x5A, 0xA5]).rxOff = 0 ∧ ref.h1 ∉ ([0xA5] : List Byte) ∧
      (held ref [] [0xA5, 0x5A, 0xA5]).rxChan = [0xA5] ++ ref.h1 :: [0xA5]) :=
  ⟨⟨held_inv _ slow_legal (by decide), by decide +kernel⟩, ⟨held_inv _ ref_legal (by decide), by decide⟩⟩

/-- V25's middle: a partial frame, an empty channel, idle POLLs and a SEND. -/
theorem witness_PartialFrameWaits :
    (held slow [0x5A, 0xA5, 0x06] []).rxChan = [] ∧
    ∀ r ∈ [Request.poll, .send ⟨.wvar, 0x1000, .none⟩], r = .poll ∨ ∃ q, r = .send q :=
  ⟨rfl, fun r hr => by rcases List.mem_pair.1 hr with rfl | rfl; exacts [.inl rfl, .inr ⟨_, rfl⟩]⟩

/-- Two states that share one half and differ in the other, each of which a SEND and a POLL complete from. -/
theorem witness_ReceiveAndTransmitAreIndependent :
    (SameTx (held slow [0x5A] [0xA5]) (held slow [] []) ∧
      (∃ t, exec (decodeRequest (.send ⟨.wvar, 0x1000, .none⟩)) (held slow [0x5A] [0xA5]) = .next t) ∧
      ∃ t, exec (decodeRequest (.send ⟨.wvar, 0x1000, .none⟩)) (held slow [] []) = .next t) ∧
    SameRx (held slow [0x5A] [0xA5]) { held slow [0x5A] [0xA5] with txSeq := [0x00], txStatus := .reject } ∧
    polls (held slow [0x5A] [0xA5]) .accum .nothing 2 0 = true :=
  ⟨⟨⟨rfl, rfl, rfl, rfl⟩, ⟨_, rfl⟩, ⟨_, rfl⟩⟩, ⟨rfl, rfl, rfl, rfl, rfl, rfl, rfl⟩, by decide +kernel⟩

/-- A POLL that completes, and one (in a state no run reaches) that faults. -/
theorem witness_StatusRegistersAreInformational :
    polls (held slow [0x5A] [0xA5]) .accum .nothing 2 0 = true ∧
    (match exec .poll { held slow [] [0x5A] with rxOff := 258 } with
      | .fault f => decide (f = .rxBufIndex 258)
      | .next _ => false
      | .refused _ => false) = true := by decide +kernel

/-- A step that is neither a POLL nor a RESET, a RESET, and a POLL without a message. -/
theorem witness_MessageStaysUntilPollOrReset :
    (∃ t, step (held slow [0x5A] []) = .next t ∧ (held slow [0x5A] []).inbox = []) ∧
    (∃ t, exec .reset (held slow [0x5A] []) = .next t) ∧
    polls (held slow [0x5A] []) .idle .nothing 1 0 = true :=
  ⟨⟨_, rfl, rfl⟩, ⟨_, rfl⟩, by decide +kernel⟩

theorem witness_ResetEstablishesInvariant : (held slow16 [0x00, 0x01] []).cfg.Legal := slow16_legal

theorem witness_ResetStateMeetsInvariant : ref.Legal ∧ slow16.Legal := ⟨ref_legal, slow16_legal⟩

/-- A state that meets the invariant and steps: a partial frame held, a POLL asked for, the frame's last byte there. -/
theorem witness_EveryStepKeepsInvariant :
    ∃ t, ({ held slow [0x5A, 0xA5, 0x01] [0x83] with inbox := [.request .poll] } : State).Inv ∧
      step { held slow [0x5A, 0xA5, 0x01] [0x83] with inbox := [.request .poll] } = .next t :=
  ⟨_, held_inv [0x83] slow_legal (by decide), rfl⟩

theorem witness_EveryStepCompletes : ({ held slow [0x5A, 0xA5, 0x01] [0x83] with inbox := [.request .poll] } : State).Inv :=
  held_inv [0x83] slow_legal (by decide)

/-- Three bytes held before and after, so that every clause of R23 speaks of the step's result; and a step that ends with a
message (V1), for R27's. -/
theorem witness_ReceiveStateInvariants :
    ((held slow [0x5A, 0xA5, 0x06] []).Inv ∧
      step (held slow [0x5A, 0xA5, 0x06] []) = .next (held slow [0x5A, 0xA5, 0x06] [])) ∧
    (({ held slow [0x5A, 0xA5, 0x06, 0x83, 0x10, 0x00, 0x01, 0x00] [0x2A] with inbox := [.request .poll] } : State).Inv ∧
      nextIs (step { held slow [0x5A, 0xA5, 0x06, 0x83, 0x10, 0x00, 0x01, 0x00] [0x2A] with inbox := [.request .poll] })
        (fun t => decide (t.rxResult = .received ∧ t.rxStatus = .msg ∧ t.msg.kind = .rvarResp)) = true) :=
  ⟨⟨held_inv _ slow_legal (by decide), rfl⟩, held_inv [0x2A] slow_legal (by decide), by decide +kernel⟩

/-- A POLL, a SEND and a RESET that answer a next state. -/
theorem witness_ChannelOrderIsKept :
    (∃ t, exec .poll (held slow [] [0x00]) = .next t) ∧ (∃ t, exec (.sendWregNone 0x03) (held slow [] [0x00]) = .next t) ∧
    ∃ t, exec .reset (held slow [] [0x00]) = .next t := ⟨⟨_, rfl⟩, ⟨_, rfl⟩, ⟨_, rfl⟩⟩

theorem witness_ParametersAreFixed :
    ∃ t, step { held slow [] [0x00] with inbox := [.request .poll] } = .next t := ⟨_, rfl⟩

theorem witness_BufferStaysCanonical :
    (held slow [0x5A] [0xA5]).rxBuf.wf ∧ ∃ t, exec .poll (held slow [0x5A] [0xA5]) = .next t :=
  ⟨by decide, ⟨_, rfl⟩⟩

theorem witness_StepRunsTheDecodedRequest :
    ({ State.reset with inbox := [.request .reset] } : State).inbox = .request .reset :: [] := rfl

theorem witness_StepDeliversOrIdles :
    ({ State.reset with inbox := [.deliver [0x5A]] } : State).inbox = .deliver [0x5A] :: [] ∧ State.reset.inbox = [] :=
  ⟨rfl, rfl⟩

theorem witness_PlacedFrameRuns :
    State.reset.cfg.Legal ∧ (Instr.rxUnknown 0x84 []).isInbound = true ∧ (Instr.rxUnknown 0x84 []).wf State.reset.cfg ∧
    encode State.reset.cfg (.rxUnknown 0x84 []) = .frame [0x5A, 0xA5, 0x01, 0x84] := by decide

end Sys2Proof.Tests
end

/-! PROOFS. The receive and the transmit half are independent (20_memory.md R61): what a SEND does as a function of the transmit
half, and the receive operations commuting with an exchange of the transmit half. -/

namespace Sys2Proof.Machine

open Host (Outcome)

/-! ### The two halves -/

theorem SameRx.refl (s : State) : SameRx s s := ⟨rfl, rfl, rfl, rfl, rfl, rfl, rfl⟩

theorem SameRx.trans {s t u : State} (hst : SameRx s t) (htu : SameRx t u) : SameRx s u := by
  obtain ⟨a1, a2, a3, a4, a5, a6, a7⟩ := hst
  obtain ⟨b1, b2, b3, b4, b5, b6, b7⟩ := htu
  exact ⟨a1.trans b1, a2.trans b2, a3.trans b3, a4.trans b4, a5.trans b5, a6.trans b6, a7.trans b7⟩

/-- `s` with everything outside its receive half (transmit state, emitted sequence, host inputs) taken from `u`. -/
def State.withTxOf (s u : State) : State :=
  { s with txStage := u.txStage, txStatus := u.txStatus, txSeq := u.txSeq, inbox := u.inbox }

@[simp] theorem State.withTxOf_cfg (s u : State) : (s.withTxOf u).cfg = s.cfg := rfl
@[simp] theorem State.withTxOf_rxOff (s u : State) : (s.withTxOf u).rxOff = s.rxOff := rfl

theorem State.sameRx_withTxOf (s u : State) : SameRx s (s.withTxOf u) := .refl s

theorem SameRx.withTxOf_eq {s s' : State} (h : SameRx s s') : s.withTxOf s' = s' := by
  cases s
  cases s'
  obtain ⟨rfl, rfl, rfl, rfl, rfl, rfl, rfl⟩ := h
  rfl

/-! ### SEND -/

/-- The skeleton of a SEND in full: the emitted bytes are a function of the parameters and the request (R101, R112). -/
theorem State.transmit_emits (s : State) (k : WriteCmd) (addr : Word) (payload : List Byte) :
    s.transmit k addr payload =
      { s with
        txSeq := s.txSeq ++ stageFrame k (buildStage s.cfg k addr payload)
        txStage := TxStage.zero
        txStatus := .sent } := by
  simp only [State.transmit, State.stage_txStage, State.emitAll_eq]
  rfl

/-- What a SEND row can do, the same from every state: refuse, do nothing, or transmit a payload that only the parameters
vary (R101, R109, R110). -/
def SendsAlike (i : Instr) : Prop :=
  (∀ s, exec i s = .next s.reject) ∨
  (∀ s, exec i s = .next s.noop) ∨
  ∃ (k : WriteCmd) (addr : Word) (payload : Params → List Byte), ∀ s, exec i s = .next (s.transmit k addr (payload s.cfg))

theorem sendsAlike_sendWvarText (addr : Word) (t : List Byte) : SendsAlike (.sendWvarText addr t) := by
  by_cases hlong : t.length > txTextMax
  · exact .inl fun s => if_pos hlong
  · by_cases hempty : t.length = 0
    · exact .inr (.inl fun s => (if_neg hlong).trans (if_pos hempty))
    · exact .inr (.inr ⟨.wvar, addr, fun _ => t, fun s => (if_neg hlong).trans (if_neg hempty)⟩)

/-- Every row with an outbound frame. -/
theorem sendsAlike_of_outboundFrame {p : Params} {i : Instr} {f : List Byte} (h : outboundFrame p i = some f) :
    SendsAlike i := by
  cases i with
  | sendWregNone a => exact .inr (.inr ⟨.wreg, a.setWidth 16, fun _ => [], fun _ => rfl⟩)
  | sendWregByte a b => exact .inr (.inr ⟨.wreg, a.setWidth 16, fun _ => [b], fun _ => rfl⟩)
  | sendWregInt a v => exact .inr (.inr ⟨.wreg, a.setWidth 16, fun _ => [intRegByte v], fun _ => rfl⟩)
  | sendWvarNone a => exact .inr (.inr ⟨.wvar, a, fun _ => [], fun _ => rfl⟩)
  | sendWvarByte a b => exact .inr (.inr ⟨.wvar, a, fun p => wordBytes (byteWord p.byteInWord b), fun _ => rfl⟩)
  | sendWvarIntShort a v => exact .inr (.inr ⟨.wvar, a, fun _ => wordBytes (intShortWord v), fun _ => rfl⟩)
  | sendWvarIntLong a v => exact .inr (.inr ⟨.wvar, a, fun _ => longBytes (intLongValue v), fun _ => rfl⟩)
  | sendWvarText a t => exact sendsAlike_sendWvarText a t
  | _ => cases h

theorem sendsAlike_decodeSend (q : SendRequest) : SendsAlike (decodeSend q) := by
  by_cases hill : illegalRequest q = true
  · rw [decodeSend, if_pos hill]
    exact .inl fun _ => rfl
  · rcases decodeSend_cases Params.ref q hill with ⟨f, hf⟩ | ⟨a, ha⟩
    · exact sendsAlike_of_outboundFrame hf
    · rw [ha]
      exact .inr (.inl fun _ => rfl)

/-- A SEND completes and leaves the receive half and the channel as they were. -/
theorem SendsAlike.sameRx {i : Instr} (h : SendsAlike i) (s : State) : ∃ t, exec i s = .next t ∧ SameRx s t := by
  rcases h with hreject | hnoop | ⟨k, addr, payload, hsend⟩
  · exact ⟨_, hreject s, .refl s⟩
  · exact ⟨_, hnoop s, .refl s⟩
  · refine ⟨_, hsend s, ?_⟩
    rw [State.transmit_emits]
    exact .refl s

/-- The outcome of a SEND on the transmit half is a function of the transmit half. -/
theorem SendsAlike.sameTx {i : Instr} (h : SendsAlike i) {s s' t t' : State} (hs : SameTx s s')
    (ht : exec i s = .next t) (ht' : exec i s' = .next t') : SameTx t t' := by
  obtain ⟨hcfg, hstage, -, hseq⟩ := hs
  rcases h with hreject | hnoop | ⟨k, addr, payload, hsend⟩
  · rw [hreject, Outcome.next.injEq] at ht ht'
    subst ht ht'
    exact ⟨hcfg, hstage, rfl, hseq⟩
  · rw [hnoop, Outcome.next.injEq] at ht ht'
    subst ht ht'
    exact ⟨hcfg, hstage, rfl, hseq⟩
  · rw [hsend, State.transmit_emits, Outcome.next.injEq] at ht ht'
    subst ht ht'
    refine ⟨hcfg, rfl, rfl, ?_⟩
    simp only [hcfg, hseq]

theorem runRequests_send_sameRx (qs : List SendRequest) (s : State) :
    ∃ t, runRequests s (qs.map .send) = .next t ∧ SameRx s t := by
  induction qs generalizing s with
  | nil => exact ⟨s, rfl, .refl s⟩
  | cons q qs ih =>
    obtain ⟨u, hu, hsu⟩ := (sendsAlike_decodeSend q).sameRx s
    obtain ⟨t, ht, hut⟩ := ih u
    refine ⟨t, ?_, hsu.trans hut⟩
    simp only [List.map_cons, runRequests, decodeRequest, hu, ht]

/-! ### POLL -/

theorem execPoll_sameTx {s t : State} (h : execPoll s = .next t) : SameTx s t := by
  obtain ⟨hcfg, hstage, hstatus, hseq, -⟩ := execPoll_frame h
  exact ⟨hcfg.symm, hstage.symm, hstatus.symm, hseq.symm⟩

/-! Each receive operation commutes with `withTxOf`. -/

theorem State.decodeRvar_withTxOf (s u : State) (body : List Byte) :
    (s.withTxOf u).decodeRvar body = (s.decodeRvar body).map (·.withTxOf u) id := by
  by_cases hfits : rvarFits body = true
  · simp only [State.decodeRvar, if_pos hfits]; rfl
  · simp only [State.decodeRvar, if_neg hfits]; rfl

theorem State.decodeRreg_withTxOf (s u : State) (body : List Byte) :
    (s.withTxOf u).decodeRreg body = (s.decodeRreg body).map (·.withTxOf u) id := by
  by_cases hfits : rregFits body = true
  · simp only [State.decodeRreg, if_pos hfits]; rfl
  · simp only [State.decodeRreg, if_neg hfits]; rfl

/-- No arm of DECODE reads or writes the transmit half. -/
theorem State.decodeArm_withTxOf (s u : State) (cmd : Byte) (body : List Byte) :
    (s.withTxOf u).decodeArm cmd body = (s.decodeArm cmd body).map (·.withTxOf u) id := by
  unfold State.decodeArm
  have hcfg := s.withTxOf_cfg u
  by_cases hwrite : cmd = s.cfg.cWreg ∨ cmd = s.cfg.cWvar
  · rw [if_pos (hcfg ▸ hwrite), if_pos hwrite]
    split <;> rfl
  rw [if_neg (hcfg ▸ hwrite), if_neg hwrite]
  by_cases hrvar : cmd = s.cfg.cRvar
  · rw [if_pos (hcfg ▸ hrvar), if_pos hrvar]
    exact s.decodeRvar_withTxOf u body
  rw [if_neg (hcfg ▸ hrvar), if_neg hrvar]
  by_cases hrreg : cmd = s.cfg.cRreg
  · rw [if_pos (hcfg ▸ hrreg), if_pos hrreg]
    exact s.decodeRreg_withTxOf u body
  · rw [if_neg (hcfg ▸ hrreg), if_neg hrreg]
    rfl

theorem State.afterStore_withTxOf (s u : State) : (s.withTxOf u).afterStore = s.afterStore.map (·.withTxOf u) id := by
  have hcheck : (s.withTxOf u).checkpoint = s.checkpoint := rfl
  have hread : (s.withTxOf u).rxRead 2 = s.rxRead 2 := rfl
  simp only [State.afterStore, State.withTxOf_rxOff, hcheck, hread]
  split
  · split <;> rfl
  · split
    · exact s.decodeArm_withTxOf u _ _
    · rfl

theorem State.stepByte_noise {s : State} {b : Byte} (h : s.rxOff = 0 ∧ b ≠ s.cfg.h1) :
    s.stepByte b = .ok (s.setRxStatus .noise, .nothing) :=
  if_pos h

theorem State.stepByte_stored {s : State} {b : Byte} (hnoise : ¬(s.rxOff = 0 ∧ b ≠ s.cfg.h1))
    (hcap : s.rxOff < s.cfg.rxCap) : s.stepByte b = .ok (stored s b).afterStore := by
  simp only [State.stepByte, if_neg hnoise, State.rxAppend_ok b hcap]
  rfl

theorem State.stepByte_overflow {s : State} {b : Byte} (hnoise : ¬(s.rxOff = 0 ∧ b ≠ s.cfg.h1))
    (hcap : ¬s.rxOff < s.cfg.rxCap) : s.stepByte b = .error (.rxBufIndex s.rxOff) := by
  simp only [State.stepByte, if_neg hnoise, State.rxAppend, if_neg hcap]

theorem State.stepByte_withTxOf (s u : State) (b : Byte) :
    (s.withTxOf u).stepByte b = (s.stepByte b).map (·.map (·.withTxOf u) id) := by
  by_cases hnoise : s.rxOff = 0 ∧ b ≠ s.cfg.h1
  · rw [State.stepByte_noise hnoise, State.stepByte_noise (s := s.withTxOf u) hnoise]
    rfl
  by_cases hcap : s.rxOff < s.cfg.rxCap
  · rw [State.stepByte_stored hnoise hcap, State.stepByte_stored (s := s.withTxOf u) hnoise hcap]
    exact congrArg Except.ok ((stored s b).afterStore_withTxOf u)
  · rw [State.stepByte_overflow hnoise hcap, State.stepByte_overflow (s := s.withTxOf u) hnoise hcap]
    rfl

theorem conclude_withTxOf (u : State) (r : State × StepResult) :
    conclude (r.map (·.withTxOf u) id) = (conclude r).withTxOf u := by
  obtain ⟨s, res⟩ := r
  cases res <;> rfl

theorem State.takeBytes_withTxOf (u : State) (n : Nat) {s t : State} (h : s.takeBytes n = .next t) :
    (s.withTxOf u).takeBytes n = .next (t.withTxOf u) := by
  induction n generalizing s with
  | zero =>
    obtain rfl := Outcome.next.inj h
    rfl
  | succ n ih =>
    cases hc : s.rxChan with
    | nil =>
      rw [State.takeBytes, State.chanTake_nil hc] at h
      obtain rfl := Outcome.next.inj h
      rw [State.takeBytes, State.chanTake_nil (s := s.withTxOf u) hc]
    | cons b rest =>
      have hstep : State.stepByte { s.withTxOf u with rxChan := rest } b = _ :=
        State.stepByte_withTxOf { s with rxChan := rest } u b
      rw [State.takeBytes_cons hc] at h
      rw [State.takeBytes_cons (s := s.withTxOf u) hc, hstep]
      cases hs : State.stepByte { s with rxChan := rest } b with
      | error f => rw [hs] at h; cases h
      | ok r =>
        rw [hs] at h
        simp only [Except.map, conclude_withTxOf]
        exact ih h

/-- A POLL of a state with another transmit half: the same on the receive half, and the other half kept. -/
theorem execPoll_withTxOf (u : State) {s t : State} (h : execPoll s = .next t) :
    execPoll (s.withTxOf u) = .next (t.withTxOf u) := by
  cases hc : s.rxChan with
  | nil =>
    rw [execPoll_empty hc] at h
    obtain rfl := Outcome.next.inj h
    exact execPoll_empty (s := s.withTxOf u) hc
  | cons b rest =>
    rw [execPoll_cons hc] at h
    rw [execPoll_cons (s := s.withTxOf u) hc]
    exact State.takeBytes_withTxOf u _ h

/-- Settles O32: SENDs act on the transmit half alone, POLLs on the receive half alone. -/
theorem receiveAndTransmitAreIndependent : Obligations.ReceiveAndTransmitAreIndependent := by
  refine ⟨fun s qs => runRequests_send_sameRx qs s, ?_, fun _ _ => execPoll_sameTx, ?_⟩
  · intro s s' t t' q hs ht ht'
    exact (sendsAlike_decodeSend q).sameTx hs ht ht'
  · intro s s' t hs ht
    have ht' := execPoll_withTxOf s' ht
    rw [hs.withTxOf_eq] at ht'
    exact ⟨_, ht', t.sameRx_withTxOf s'⟩

end Sys2Proof.Machine

/-! PROOFS. The transmit operations (40_transmit.md): which row a SEND request is, the frame of a row, and what `exec` of
the row does with it. -/

namespace Sys2Proof.Machine

/-! ### Refused and accepted requests (R110) -/

theorem decodeSend_refused {q : SendRequest} (h : illegalRequest q = true) : decodeSend q = .sendRefused q :=
  if_pos h

@[simp] theorem illegalRequest_wvar (addr : Word) (pl : Payload) :
    illegalRequest ⟨.wvar, addr, pl⟩ = isLongText pl := by
  simp [illegalRequest]

/-- An 8-bit register address is never the reason for a refusal. -/
@[simp] theorem illegalRequest_wreg (a : Byte) (pl : Payload) :
    illegalRequest ⟨.wreg, a.setWidth 16, pl⟩ = isText pl := by
  have haddr : a.setWidth 16 ≤ 255#16 := by
    have := a.isLt
    simp only [BitVec.le_def, BitVec.toNat_setWidth, BitVec.toNat_ofNat]
    omega
  cases pl <;> simp [illegalRequest, isText, isLongText, haddr]

@[simp] theorem isLong_eq_true (v : IntPayload) : isLong v = true ↔ intValue v > 65535 := decide_eq_true_iff

/-! The row of each accepted request (R93). -/

theorem decodeSend_wreg_none (a : Byte) : decodeSend ⟨.wreg, a.setWidth 16, .none⟩ = .sendWregNone a := by
  simp [decodeSend, isText, lo8_setWidth]

theorem decodeSend_wreg_byte (a b : Byte) : decodeSend ⟨.wreg, a.setWidth 16, .byte b⟩ = .sendWregByte a b := by
  simp [decodeSend, isText, lo8_setWidth]

theorem decodeSend_wreg_int (a : Byte) (v : IntPayload) :
    decodeSend ⟨.wreg, a.setWidth 16, .int v⟩ = .sendWregInt a v := by
  simp [decodeSend, isText, lo8_setWidth]

theorem decodeSend_wvar_none (addr : Word) : decodeSend ⟨.wvar, addr, .none⟩ = .sendWvarNone addr := by
  simp [decodeSend, isLongText]

theorem decodeSend_wvar_byte (addr : Word) (b : Byte) : decodeSend ⟨.wvar, addr, .byte b⟩ = .sendWvarByte addr b := by
  simp [decodeSend, isLongText]

theorem decodeSend_wvar_int_long (addr : Word) {v : IntPayload} (h : intValue v > 65535) :
    decodeSend ⟨.wvar, addr, .int v⟩ = .sendWvarIntLong addr v := by
  simp [decodeSend, isLongText, (isLong_eq_true v).2 h]

theorem decodeSend_wvar_int_short (addr : Word) {v : IntPayload} (h : intValue v ≤ 65535) :
    decodeSend ⟨.wvar, addr, .int v⟩ = .sendWvarIntShort addr v := by
  simp [decodeSend, isLongText, isLong, h.not_gt]

theorem decodeSend_wvar_text_nil (addr : Word) : decodeSend ⟨.wvar, addr, .text []⟩ = .sendWvarTextEmpty addr := by
  simp [decodeSend, isLongText]

theorem decodeSend_wvar_text (addr : Word) {t : List Byte} (hpos : 1 ≤ t.length) (hmax : t.length ≤ txTextMax) :
    decodeSend ⟨.wvar, addr, .text t⟩ = .sendWvarText addr t := by
  obtain ⟨c, rest, rfl⟩ := List.exists_cons_of_length_pos hpos
  have hlegal : ¬ illegalRequest ⟨.wvar, addr, .text (c :: rest)⟩ = true := by simpa [isLongText] using hmax
  simp only [decodeSend, if_neg hlegal]

/-- Every request decodes to a row that admits it. -/
theorem decodeSend_wf (p : Params) (q : SendRequest) : (decodeSend q).wf p := by
  by_cases hill : illegalRequest q = true
  · rw [decodeSend_refused hill]
    exact hill
  · obtain ⟨cmd, addr, pl⟩ := q
    simp only [decodeSend, if_neg hill]
    cases cmd with
    | wreg =>
      cases pl with
      | text t => simp [illegalRequest, isText] at hill
      | none | byte b | int v => trivial
    | wvar =>
      cases pl with
      | none | byte b => trivial
      | int v =>
        by_cases hlong : isLong v = true
        · simp only [if_pos hlong]
          exact (isLong_eq_true v).1 hlong
        · simp only [if_neg hlong]
          exact not_lt.1 (mt (isLong_eq_true v).2 hlong)
      | text t =>
        cases t with
        | nil => trivial
        | cons c t => exact ⟨by simp, by simpa [isLongText] using hill⟩
    | rreg | rvar => simp [illegalRequest] at hill

/-! ### The frames -/

/-- The header, the length and the command byte of every frame the codec sends (R71, R116). -/
theorem wireFrame_header (p : Params) (k : WriteCmd) (addr : Word) {payload : List Byte}
    (h : payload.length ≤ txTextMax) :
    ∃ len rest, wireFrame p k addr payload = p.h1 :: p.h2 :: len :: writeCode p k :: rest ∧
      len.toNat = 1 + rest.length ∧ 1 ≤ rest.length ∧ rest.length ≤ 254 := by
  refine ⟨_, addrBytes k addr ++ payload, rfl, ?_⟩
  have hmax : payload.length ≤ 252 := h
  have haddr := addrBytes_length k addr
  simp only [bodyLen, BitVec.toNat_ofNat, List.length_append]
  omega

/-- What a row with an outbound frame is: a write command with a payload that fits the staging record, whose wire frame
that is, and which `exec` transmits (R101). -/
theorem outboundFrame_some {p : Params} {i : Instr} {f : List Byte} (hwf : i.wf p) (h : outboundFrame p i = some f) :
    ∃ k addr payload, payload.length ≤ txTextMax ∧ f = wireFrame p k addr payload ∧
      ∀ s : State, s.cfg = p → exec i s = .next (s.transmit k addr payload) := by
  suffices hrow : ∃ k addr payload, payload.length ≤ txTextMax ∧ outboundFrame p i = some (wireFrame p k addr payload) ∧
      ∀ s : State, s.cfg = p → exec i s = .next (s.transmit k addr payload) by
    simpa only [h, Option.some.injEq] using hrow
  have hwreg : ∀ (a : Byte) (payload : List Byte),
      some (frameBytes p p.cWreg (a :: payload)) = some (wireFrame p .wreg (a.setWidth 16) payload) := by
    simp [wireFrame, writeCode, lo8_setWidth]
  have hzero : 0 ≤ txTextMax := by decide
  have hone : 1 ≤ txTextMax := by decide
  have htwo : 2 ≤ txTextMax := by decide
  have hfour : 4 ≤ txTextMax := by decide
  cases i with
  | sendWregNone a => exact ⟨.wreg, a.setWidth 16, [], hzero, hwreg a _, fun _ _ => rfl⟩
  | sendWregByte a b => exact ⟨.wreg, a.setWidth 16, [b], hone, hwreg a _, fun _ _ => rfl⟩
  | sendWregInt a v => exact ⟨.wreg, a.setWidth 16, [intRegByte v], hone, hwreg a _, fun _ _ => rfl⟩
  | sendWvarNone a => exact ⟨.wvar, a, [], hzero, rfl, fun _ _ => rfl⟩
  | sendWvarByte a b =>
    exact ⟨.wvar, a, wordBytes (byteWord p.byteInWord b), htwo, rfl, fun _ hs => by rw [← hs]; rfl⟩
  | sendWvarIntShort a v => exact ⟨.wvar, a, wordBytes (intShortWord v), htwo, rfl, fun _ _ => rfl⟩
  | sendWvarIntLong a v => exact ⟨.wvar, a, longBytes (intLongValue v), hfour, rfl, fun _ _ => rfl⟩
  | sendWvarText a t =>
    obtain ⟨hpos, hmax⟩ := hwf
    exact ⟨.wvar, a, t, hmax, rfl, fun _ _ => (if_neg (by omega)).trans (if_neg (by omega))⟩
  | _ => cases h

/-- A well-formed row with a frame appends exactly that frame to `tx_seq` (R102, R112). -/
theorem exec_of_outboundFrame {s : State} {i : Instr} {f : List Byte} (hwf : i.wf s.cfg)
    (h : outboundFrame s.cfg i = some f) :
    exec i s = .next { s with txSeq := s.txSeq ++ f, txStage := TxStage.zero, txStatus := .sent } := by
  obtain ⟨k, addr, payload, hlen, rfl, hexec⟩ := outboundFrame_some hwf h
  rw [hexec s rfl, State.transmit_eq s k addr hlen]

/-- A SEND the codec does not refuse is the empty text, or transmits one frame of a write command (R101, R109). -/
theorem exec_decodeSend_accepted (s : State) {q : SendRequest} (h : ¬ illegalRequest q = true) :
    exec (decodeSend q) s = .next s.noop ∨
    ∃ k addr payload, payload.length ≤ txTextMax ∧
      exec (decodeSend q) s = .next { s with
        txSeq := s.txSeq ++ wireFrame s.cfg k addr payload, txStage := TxStage.zero, txStatus := .sent } := by
  rcases decodeSend_cases s.cfg q h with ⟨f, hf⟩ | ⟨a, ha⟩
  · have hwf := decodeSend_wf s.cfg q
    obtain ⟨k, addr, payload, hlen, rfl, -⟩ := outboundFrame_some hwf hf
    exact .inr ⟨k, addr, payload, hlen, exec_of_outboundFrame hwf hf⟩
  · rw [ha]
    exact .inl rfl

/-! ### Integer payloads (R82, R84) -/

theorem ofInt_eq_of_toNat {w : Nat} {u : BitVec w} {n : Int} (h : (u.toNat : Int) = n % 2 ^ w) :
    BitVec.ofInt w n = u := by
  apply BitVec.eq_of_toNat_eq
  rw [BitVec.toNat_ofInt]
  push_cast
  omega

/-- The low byte of the 32-bit value is the integer modulo 2^32, reduced to a byte. -/
theorem intRegByte_eq (v : IntPayload) : intRegByte v = BitVec.ofInt 8 (intValue v % 2 ^ 32) := by
  apply BitVec.eq_of_toNat_eq
  simp only [intRegByte, BitVec.extractLsb'_toNat, BitVec.toNat_ofInt, Nat.shiftRight_zero]
  omega

/-- The whole 32-bit value is big-endian on the wire (R52). -/
theorem longBytes_eq (u : DWord) :
    longBytes u = [u.extractLsb' 24 8, u.extractLsb' 16 8, u.extractLsb' 8 8, u.extractLsb' 0 8] := by
  have hsub : ∀ i j : Nat, j + 8 ≤ 16 → (u.extractLsb' i 16).extractLsb' j 8 = u.extractLsb' (i + j) 8 := by
    intro i j hj
    ext k hk
    have hk' : j + k < 16 := by omega
    simp [hk', Nat.add_assoc]
  simp [longBytes, wordBytes, hi8, lo8, hsub]

theorem intValue_i16_le (sgn : Bool) (x : Word) : intValue (.i16 sgn x) ≤ 65535 := by
  have hlt := x.isLt
  cases sgn
  · show (x.toNat : Int) ≤ 65535
    omega
  · show x.toInt ≤ 65535
    have := BitVec.toInt_lt (x := x)
    omega

theorem hi8_lo8_shiftLeft (b : Byte) : hi8 (b.setWidth 16 <<< 8) = b ∧ lo8 (b.setWidth 16 <<< 8) = 0 := by
  constructor <;> apply BitVec.eq_of_toNat_eq
  · have := b.isLt
    simp [hi8, Nat.shiftLeft_eq, Nat.shiftRight_eq_div_pow]
    omega
  · simp [lo8, Nat.shiftLeft_eq]

theorem hi8_setWidth (b : Byte) : hi8 (b.setWidth 16) = 0 := by
  apply BitVec.eq_of_toNat_eq
  have := b.isLt
  simp [hi8, Nat.shiftRight_eq_div_pow]
  omega

theorem wordBytes_byteWord_high (b : Byte) : wordBytes (byteWord .high b) = [b, 0x00] := by
  obtain ⟨hhi, hlo⟩ := hi8_lo8_shiftLeft b
  simp only [wordBytes, byteWord, hhi, hlo, BitVec.ofNat_eq_ofNat]

theorem wordBytes_byteWord_low (b : Byte) : wordBytes (byteWord .low b) = [0x00, b] := by
  simp only [wordBytes, byteWord, hi8_setWidth, lo8_setWidth, BitVec.ofNat_eq_ofNat]

/-! ### The statements -/

/-- Settles O7: each form by its frame, the refusal by R110's second case, the least LEN by the header of every frame. -/
theorem writeRegisterRequests : Obligations.WriteRegisterRequests := by
  intro s a b v addr
  refine ⟨⟨decodeSend_wreg_none a, exec_of_outboundFrame trivial rfl⟩,
    ⟨decodeSend_wreg_byte a b, exec_of_outboundFrame trivial rfl⟩,
    ⟨decodeSend_wreg_int a v, exec_of_outboundFrame trivial ?_⟩, fun haddr pl => ?_, fun i f hwf hf => ?_⟩
  · rw [← intRegByte_eq]
    rfl
  · have hill : illegalRequest ⟨.wreg, addr, pl⟩ = true := (illegalRequest_iff _).2 (.inr (.inl ⟨rfl, haddr⟩))
    rw [decodeRequest, decodeSend_refused hill]
    rfl
  · obtain ⟨k, addr, payload, hlen, rfl, -⟩ := outboundFrame_some hwf hf
    obtain ⟨len, rest, hframe, hLEN, hpos, -⟩ := wireFrame_header s.cfg k addr hlen
    rw [hframe]
    show 2 ≤ len.toNat
    omega

/-- Settles O8: the two frames, the byte's word by its placement. -/
theorem writeVariableNoneAndByte : Obligations.WriteVariableNoneAndByte := by
  intro s addr b
  refine ⟨⟨decodeSend_wvar_none addr, exec_of_outboundFrame trivial rfl⟩, decodeSend_wvar_byte addr b,
    fun hhigh => exec_of_outboundFrame trivial ?_, fun hlow => exec_of_outboundFrame trivial ?_⟩
  · rw [outboundFrame, hhigh, wordBytes_byteWord_high]
    rfl
  · rw [outboundFrame, hlow, wordBytes_byteWord_low]
    rfl

/-- Settles O9: `n` is the payload's integer value, so the threshold selects the row and its frame. -/
theorem writeVariableIntegers : Obligations.WriteVariableIntegers := by
  intro s addr v n hn
  have hval : n = intValue v := by
    rw [hn]
    rcases v with ⟨_ | _, x⟩ | ⟨_ | _, x⟩ <;> rfl
  subst hval
  refine ⟨fun hlong u hu => ⟨decodeSend_wvar_int_long addr hlong, exec_of_outboundFrame hlong ?_⟩,
    fun hshort w hw => ⟨decodeSend_wvar_int_short addr hshort, exec_of_outboundFrame hshort ?_⟩, ?_⟩
  · rw [outboundFrame, intLongValue, ofInt_eq_of_toNat hu, longBytes_eq]
    rfl
  · rw [outboundFrame, intShortWord, ofInt_eq_of_toNat hw]
    rfl
  · rintro sgn x rfl
    exact intValue_i16_le sgn x

/-- Settles O10: the three lengths of R109 and R110. -/
theorem writeVariableText : Obligations.WriteVariableText := by
  intro s addr t
  refine ⟨fun hempty => ?_, fun hpos hmax => ⟨decodeSend_wvar_text addr hpos hmax,
    exec_of_outboundFrame ⟨hpos, hmax⟩ ?_⟩, fun hlong => ⟨decodeSend_refused ?_, rfl⟩⟩
  · obtain rfl := List.length_eq_zero_iff.1 hempty
    exact ⟨decodeSend_wvar_text_nil addr, rfl⟩
  · have hLEN : bodyLen (wordBytes addr ++ t) = 3 + t.length := by
      simp only [bodyLen, List.length_append, wordBytes_length]
      omega
    rw [outboundFrame, frameBytes, hLEN]
    rfl
  · exact (illegalRequest_iff _).2 (.inr (.inr (.inr ⟨t, rfl, hlong⟩)))

/-- Settles O11: the four cases are `illegalRequest`; every other SEND ends with NOOP or SENT. -/
theorem refusedRequestsExactly : Obligations.RefusedRequestsExactly := by
  intro s q illegal hcases
  rw [← illegalRequest_iff] at hcases
  refine ⟨fun hill => ⟨decodeSend_refused (hcases.1 hill), rfl⟩, fun hlegal => ?_⟩
  rcases exec_decodeSend_accepted s (mt hcases.2 hlegal) with hnoop | ⟨k, addr, payload, -, hsent⟩
  · exact ⟨_, hnoop, by simp⟩
  · exact ⟨_, hsent, by simp⟩

/-- Settles O12: a refused SEND, an empty text, or one wire frame with its header. -/
theorem everySendEmitsOneHeadedFrameOrNothing : Obligations.EverySendEmitsOneHeadedFrameOrNothing := by
  intro s q hstage
  by_cases hill : illegalRequest q = true
  · rw [decodeRequest, decodeSend_refused hill]
    exact .inl rfl
  rcases exec_decodeSend_accepted s hill with hnoop | ⟨k, addr, payload, hlen, hsent⟩
  · exact .inr (.inl hnoop)
  obtain ⟨len, rest, hframe, hLEN, -, hmax⟩ := wireFrame_header s.cfg k addr hlen
  rw [← hstage, hframe] at hsent
  have hcmd : writeCode s.cfg k = s.cfg.cWreg ∨ writeCode s.cfg k = s.cfg.cWvar := by
    cases k
    · exact .inl rfl
    · exact .inr rfl
  refine .inr (.inr ⟨_, hsent, ?_, rfl, rfl, ⟨len, rfl, ?_⟩, hcmd.imp (congrArg some) (congrArg some)⟩) <;>
    simp only [List.length_cons] <;> omega

end Sys2Proof.Machine

/-! PROOFS. The receive operations (41_receive.md): what one byte and what one POLL can do to a state that meets the receive
invariant, and the runs of POLLs built from them. -/

namespace Sys2Proof.Machine

open Host (Outcome)

/-! ### One byte -/

@[simp] theorem exec_poll (s : State) : exec .poll s = execPoll s := rfl

/-- One turn of POLL's byte loop (R130): STEP, then a MESSAGE turned into RECEIVED. -/
def State.receive (s : State) (b : Byte) : Outcome State Fault Refusal :=
  match s.stepByte b with
  | .error f => .fault f
  | .ok r => .next (conclude r)

theorem State.receive_ok {s : State} {b : Byte} {r : State × StepResult} (h : s.stepByte b = .ok r) :
    s.receive b = .next (conclude r) := by
  rw [State.receive, h]

theorem State.receive_error {s : State} {b : Byte} {f : Fault} (h : s.stepByte b = .error f) :
    s.receive b = .fault f := by
  rw [State.receive, h]

/-- What one byte leaves alone, whatever the state. -/
theorem State.receive_frame {s t : State} {b : Byte} (h : s.receive b = .next t) :
    SameRest s t ∧ (t.rxResult = .nothing → t.msg = s.msg ∧ s.rxResult = .nothing) := by
  cases hs : s.stepByte b with
  | error f => rw [State.receive_error hs] at h; cases h
  | ok r =>
    rw [State.receive_ok hs, Outcome.next.injEq] at h
    obtain ⟨hrest, -, hmsg⟩ := stepByte_frame hs
    exact h ▸ ⟨hrest, hmsg⟩

/-- What a DECODE arm and its conclusion leave: the buffer empty, with a status code or with a message. A frame that
carries a message has LEN at least 3 (R142, R143). -/
theorem conclude_decodeArm_cases (s : State) (cmd : Byte) (body : List Byte) :
    (∃ c, conclude (s.decodeArm cmd body) = s.endFrame c) ∨
    (∃ m, 3 ≤ bodyLen body ∧
      conclude (s.decodeArm cmd body) = { s.endFrame .msg with msg := m, rxResult := .received }) := by
  rcases s.decodeArm_cases cmd body with ⟨c, -, -, -, -, hd⟩ | ⟨m, -, hlen, hd⟩
  · exact .inl ⟨c, by rw [hd]; rfl⟩
  · exact .inr ⟨m, by omega, by rw [hd]; rfl⟩

/-- What one byte can do to a state that meets the receive invariant (R134 to R139). -/
inductive Receives (s : State) (b : Byte) : State → Prop where
  | noise (h0 : s.rxOff = 0) (hb : b ≠ s.cfg.h1) : Receives s b (s.setRxStatus .noise)
  | stored (hhead : s.rxOff = 0 → b = s.cfg.h1)
      (hcheck : s.rxOff = 2 → s.rxRead 1 = s.cfg.h2 ∧ 1 ≤ b.toNat ∧ 3 + b.toNat ≤ s.cfg.rxCap)
      (hmore : 3 ≤ s.rxOff → s.rxOff + 1 ≠ 3 + (s.rxRead 2).toNat)
      (hinv : ReceiveInv ((stored s b).setRxStatus .accum)) : Receives s b ((stored s b).setRxStatus .accum)
  | badHeader (h2 : s.rxOff = 2) (hh : s.rxRead 1 ≠ s.cfg.h2) : Receives s b (s.endFrame .dropHeader)
  | badLength (h2 : s.rxOff = 2) (hh : s.rxRead 1 = s.cfg.h2) (hlen : b.toNat = 0 ∨ 3 + b.toNat > s.cfg.rxCap) :
      Receives s b (s.endFrame .dropLength)
  | decoded (h3 : 3 ≤ s.rxOff) (hlast : s.rxOff + 1 = 3 + (s.rxRead 2).toNat) (cmd : Byte) (body : List Byte)
      (hfits : bodyFits s.cfg body) (hframe : s.rxBytes 0 s.rxOff ++ [b] = frameBytes s.cfg cmd body) :
      Receives s b (conclude (s.decodeArm cmd body))

/-- From a state that meets the receive invariant a byte is always received, in one of those ways. -/
theorem ReceiveInv.receive {s : State} (h : ReceiveInv s) (b : Byte) :
    ∃ t, s.receive b = .next t ∧ Receives s b t := by
  rcases stepByte_cases h b with ⟨h0, hb, hs⟩ | ⟨hhead, hcheck, hmore, hinv, hs⟩ | ⟨h2, hh, hs⟩ | ⟨h2, hh, hlen, hs⟩ |
    ⟨h3, hlast, hs⟩
  · exact ⟨_, State.receive_ok hs, .noise h0 hb⟩
  · exact ⟨_, State.receive_ok hs, .stored hhead hcheck hmore hinv⟩
  · exact ⟨_, State.receive_ok hs, .badHeader h2 hh⟩
  · exact ⟨_, State.receive_ok hs, .badLength h2 hh hlen⟩
  · obtain ⟨cmd, body, hfits, hframe, hd⟩ := decodeBuffer_stored h b h3 hlast
    rw [hd] at hs
    exact ⟨_, State.receive_ok hs, .decoded h3 hlast cmd body hfits hframe⟩

@[simp] theorem State.rxBytes_length (s : State) (i n : Nat) : (s.rxBytes i n).length = n := by
  simp [State.rxBytes]

@[simp] theorem frameBytes_length (p : Params) (cmd : Byte) (body : List Byte) :
    (frameBytes p cmd body).length = 3 + bodyLen body := by
  simp only [frameBytes, bodyLen, List.length_append, List.length_cons, List.length_nil]
  omega

theorem ReceiveInv.endFrame {s : State} (h : ReceiveInv s) (c : RxStatus) : ReceiveInv (s.endFrame c) := by
  refine ⟨h.legal, ⟨Memory.wf_nil, fun _ _ => rfl⟩, fun hoff => ?_, fun hoff => ?_⟩ <;>
    simp only [State.endFrame_rxOff] at hoff <;> omega

theorem ReceiveInv.setRxStatus {s : State} (h : ReceiveInv s) (c : RxStatus) : ReceiveInv (s.setRxStatus c) :=
  ⟨h.legal, h.buf, h.frame⟩

section

variable {s t : State} {b : Byte}

theorem Receives.inv (h : ReceiveInv s) (ht : Receives s b t) : ReceiveInv t := by
  cases ht with
  | noise => exact h.setRxStatus _
  | stored _ _ _ hinv => exact hinv
  | badHeader | badLength => exact h.endFrame _
  | decoded _ _ cmd body =>
    rcases conclude_decodeArm_cases s cmd body with ⟨c, hd⟩ | ⟨m, -, hd⟩
    · rw [hd]; exact h.endFrame c
    · obtain ⟨hlegal, hbuf, hframe⟩ := h.endFrame .msg
      rw [hd]; exact ⟨hlegal, hbuf, hframe⟩

theorem Receives.rxOff_le (ht : Receives s b t) : t.rxOff ≤ s.rxOff + 1 := by
  cases ht with
  | noise => exact Nat.le_succ _
  | stored => exact Nat.le_refl _
  | badHeader | badLength => exact Nat.zero_le _
  | decoded _ _ cmd body =>
    rcases conclude_decodeArm_cases s cmd body with ⟨c, hd⟩ | ⟨m, -, hd⟩ <;> rw [hd] <;> exact Nat.zero_le _

/-- A byte leaves ACCUM, or the buffer empty. -/
theorem Receives.accum_or_empty (h : ReceiveInv s) (ht : Receives s b t) :
    t.rxStatus = .accum ∨ (t.rxBuf = [] ∧ t.rxOff = 0) := by
  cases ht with
  | noise h0 => exact .inr ⟨h.empty h0, h0⟩
  | stored => exact .inl rfl
  | badHeader | badLength => exact .inr ⟨rfl, rfl⟩
  | decoded _ _ cmd body =>
    rcases conclude_decodeArm_cases s cmd body with ⟨c, hd⟩ | ⟨m, -, hd⟩ <;> rw [hd] <;> exact .inr ⟨rfl, rfl⟩

/-- A message comes only from a complete frame of at least 6 bytes. -/
theorem Receives.nothing_of_short (ht : Receives s b t) (hshort : s.rxOff + 1 < 6) (hr : s.rxResult = .nothing) :
    t.rxResult = .nothing := by
  cases ht with
  | noise | stored | badHeader | badLength => exact hr
  | decoded _ _ cmd body _ hframe =>
    have hlen := congrArg List.length hframe
    simp only [List.length_append, State.rxBytes_length, frameBytes_length, List.length_cons, List.length_nil] at hlen
    rcases conclude_decodeArm_cases s cmd body with ⟨c, hd⟩ | ⟨m, h3, -⟩
    · rw [hd]; exact hr
    · omega

end

/-! ### The byte loop -/

theorem State.takeBytes_succ {s t : State} {b : Byte} {rest : List Byte} (hc : s.rxChan = b :: rest)
    (h : State.receive { s with rxChan := rest } b = .next t) (n : Nat) : s.takeBytes (n + 1) = t.takeBytes n := by
  rw [State.takeBytes_cons hc]
  cases hs : State.stepByte { s with rxChan := rest } b with
  | error f => rw [State.receive_error hs] at h; cases h
  | ok r =>
    rw [State.receive_ok hs, Outcome.next.injEq] at h
    simp only [h]

theorem ReceiveInv.withChan {s : State} (h : ReceiveInv s) (chan : List Byte) :
    ReceiveInv { s with rxChan := chan } := ⟨h.legal, h.buf, h.frame⟩

/-- What `n` bytes of the channel leave, from a state that meets the receive invariant. -/
theorem ReceiveInv.takeBytes {s : State} (h : ReceiveInv s) {n : Nat} (hn : n ≤ s.rxChan.length) :
    ∃ t, s.takeBytes n = .next t ∧ ReceiveInv t ∧ t.rxChan = s.rxChan.drop n ∧
      (s.rxOff + n < 6 → s.rxResult = .nothing → t.rxResult = .nothing) ∧
      (n ≠ 0 → t.rxStatus = .accum ∨ (t.rxBuf = [] ∧ t.rxOff = 0)) := by
  induction n generalizing s with
  | zero => exact ⟨s, rfl, h, rfl, fun _ hr => hr, fun h0 => absurd rfl h0⟩
  | succ n ih =>
    cases hc : s.rxChan with
    | nil => rw [hc] at hn; cases hn
    | cons b rest =>
      have hrest := h.withChan rest
      obtain ⟨u, hu, hru⟩ := hrest.receive b
      obtain ⟨-, hchan, -⟩ := (State.receive_frame hu).1
      replace hchan : u.rxChan = rest := hchan
      rw [hc, List.length_cons] at hn
      obtain ⟨t, ht, hinv, hdrop, hnothing, hstatus⟩ := ih (hru.inv hrest) (by rw [hchan]; omega)
      refine ⟨t, by rw [State.takeBytes_succ hc hu, ht], hinv, by rw [hdrop, hchan, List.drop_succ_cons], ?_, fun _ => ?_⟩
      · intro hshort hr
        have hoff : u.rxOff ≤ s.rxOff + 1 := hru.rxOff_le
        have hshort' : s.rxOff + 1 < 6 := by omega
        exact hnothing (by omega) (hru.nothing_of_short hshort' hr)
      · cases n with
        | zero =>
          obtain rfl := Outcome.next.inj ht
          exact hru.accum_or_empty hrest
        | succ n => exact hstatus (Nat.succ_ne_zero n)

/-! ### One POLL -/

@[simp] theorem State.polled_cfg (s : State) (rest : List Byte) : (s.polled rest).cfg = s.cfg := rfl
@[simp] theorem State.polled_rxOff (s : State) (rest : List Byte) : (s.polled rest).rxOff = s.rxOff := rfl
@[simp] theorem State.polled_rxRead (s : State) (rest : List Byte) (i : Nat) :
    (s.polled rest).rxRead i = s.rxRead i := rfl
@[simp] theorem State.polled_rxBytes (s : State) (rest : List Byte) (i n : Nat) :
    (s.polled rest).rxBytes i n = s.rxBytes i n := rfl
@[simp] theorem State.polled_rxChan (s : State) (rest : List Byte) : (s.polled rest).rxChan = rest := rfl
@[simp] theorem State.polled_msg (s : State) (rest : List Byte) : (s.polled rest).msg = Msg.zero := rfl

/-- A POLL that takes one byte is the reception of that byte. -/
theorem execPoll_receive {s : State} {b : Byte} {rest : List Byte} (hc : s.rxChan = b :: rest)
    (h : s.cfg.fastpath = false ∨ s.rxOff ≠ 0 ∨ fastPrefix s.cfg s.rxChan = none) :
    execPoll s = (s.polled rest).receive b := by
  rw [execPoll_slow hc h]
  cases hs : (s.polled rest).stepByte b with
  | error f => rw [State.receive_error hs]
  | ok r => rw [State.receive_ok hs]

theorem State.pollTake_literal {s : State} {pre : List Byte} (hf : s.cfg.fastpath = true) (h0 : s.rxOff = 0)
    (hpre : s.fastPre = some pre) : s.pollTake = pre.length := by
  simp only [State.pollTake, hf, h0, and_self, if_true, hpre]

/-- A POLL at an empty buffer that finds one of the literal prefixes takes its bytes (R133). -/
theorem execPoll_literal {s : State} {pre : List Byte} (hf : s.cfg.fastpath = true) (h0 : s.rxOff = 0)
    (hpre : fastPrefix s.cfg s.rxChan = some pre) : execPoll s = s.beginPoll.takeBytes pre.length := by
  obtain ⟨hmem, hlen, -⟩ := fastPrefix_some hpre
  obtain ⟨r, rfl, -⟩ := literalPrefixes_head hmem
  obtain ⟨b, rest, hc⟩ := List.exists_cons_of_length_pos (Nat.lt_of_lt_of_le (Nat.succ_pos _) hlen)
  rw [execPoll_cons hc, State.pollTake_literal (s := s.beginPoll) hf h0 hpre]

/-- The literal prefixes are 2 to 4 bytes long (R88). -/
theorem fastPrefix_length {p : Params} {chan pre : List Byte} (h : fastPrefix p chan = some pre) :
    2 ≤ pre.length ∧ pre.length ≤ 4 ∧ pre.length ≤ chan.length := by
  obtain ⟨hmem, hlen, -⟩ := fastPrefix_some h
  refine ⟨?_, ?_, hlen⟩ <;> obtain ⟨r, rfl, rfl | rfl | rfl⟩ := literalPrefixes_head hmem <;> simp

/-- The two ways a POLL runs: it receives one byte, or it takes one of the literal prefixes at an empty buffer (R132, R133). -/
theorem execPoll_cases {s : State} {b : Byte} {rest : List Byte} (hc : s.rxChan = b :: rest) :
    execPoll s = (s.polled rest).receive b ∨
    (s.rxOff = 0 ∧ ∃ n, 2 ≤ n ∧ n ≤ 4 ∧ n ≤ s.rxChan.length ∧ execPoll s = s.beginPoll.takeBytes n) := by
  by_cases hslow : s.cfg.fastpath = false ∨ s.rxOff ≠ 0 ∨ fastPrefix s.cfg s.rxChan = none
  · exact .inl (execPoll_receive hc hslow)
  · push Not at hslow
    obtain ⟨hf, h0, hpre⟩ := hslow
    obtain ⟨pre, hpre⟩ := Option.ne_none_iff_exists'.1 hpre
    obtain ⟨h2, h4, hlen⟩ := fastPrefix_length hpre
    exact .inr ⟨h0, pre.length, h2, h4, hlen, execPoll_literal (by simpa using hf) h0 hpre⟩

/-- A byte other than `H1` at an empty buffer is noise, with or without the fast path (R134). -/
theorem execPoll_noise {s : State} {b : Byte} {rest : List Byte} (hc : s.rxChan = b :: rest) (h0 : s.rxOff = 0)
    (hb : b ≠ s.cfg.h1) : execPoll s = .next ((s.polled rest).setRxStatus .noise) := by
  rw [execPoll_receive hc (.inr (.inr (by rw [hc]; exact fastPrefix_ne hb)))]
  exact State.receive_ok (State.stepByte_noise (s := s.polled rest) ⟨h0, hb⟩)

end Sys2Proof.Machine

/-! PROOFS. One POLL by the kind of its byte (41_receive.md R136 to R144): the 3-byte checkpoint and the arms of DECODE. -/

namespace Sys2Proof.Machine

open Host (Outcome)

/-! ### The arms of DECODE, with their conclusion -/

theorem conclude_drop (s : State) (c : RxStatus) :
    conclude (s.drop c) = { s with rxBuf := [], rxOff := 0, rxStatus := c } := rfl

theorem conclude_decodeArm_ack {s : State} {cmd : Byte} {body : List Byte} (hcmd : cmd = s.cfg.cWreg ∨ cmd = s.cfg.cWvar)
    (hack : isAckBody body = true) :
    conclude (s.decodeArm cmd body) = { s with rxBuf := [], rxOff := 0, rxStatus := .ack } := by
  rw [State.decodeArm, if_pos hcmd, if_pos hack]
  rfl

theorem conclude_decodeArm_notAck {s : State} {cmd : Byte} {body : List Byte}
    (hcmd : cmd = s.cfg.cWreg ∨ cmd = s.cfg.cWvar) (hack : ¬ isAckBody body = true) :
    conclude (s.decodeArm cmd body) = { s with rxBuf := [], rxOff := 0, rxStatus := .dropFields } := by
  rw [State.decodeArm, if_pos hcmd, if_neg hack]
  rfl

theorem conclude_decodeArm_unknown {s : State} {cmd : Byte} {body : List Byte} (hwreg : cmd ≠ s.cfg.cWreg)
    (hrreg : cmd ≠ s.cfg.cRreg) (hwvar : cmd ≠ s.cfg.cWvar) (hrvar : cmd ≠ s.cfg.cRvar) :
    conclude (s.decodeArm cmd body) = { s with rxBuf := [], rxOff := 0, rxStatus := .dropCommand } := by
  rw [State.decodeArm, if_neg (not_or.2 ⟨hwreg, hwvar⟩), if_neg hrvar, if_neg hrreg]
  rfl

/-- The command bytes are distinct, so a read-variable response reaches its own arm (R10, R94). -/
theorem State.decodeArm_rvar {s : State} (h : s.cfg.Legal) (body : List Byte) :
    s.decodeArm s.cfg.cRvar body = s.decodeRvar body := by
  have hd := h.1
  simp only [List.nodup_cons, List.mem_cons, List.not_mem_nil, or_false, not_or] at hd
  obtain ⟨⟨-, -, h1⟩, -, h2, -⟩ := hd
  rw [State.decodeArm, if_neg (not_or.2 ⟨Ne.symm h1, Ne.symm h2⟩), if_pos rfl]

theorem State.decodeArm_rreg {s : State} (h : s.cfg.Legal) (body : List Byte) :
    s.decodeArm s.cfg.cRreg body = s.decodeRreg body := by
  have hd := h.1
  simp only [List.nodup_cons, List.mem_cons, List.not_mem_nil, or_false, not_or] at hd
  obtain ⟨⟨h1, -, -⟩, ⟨h2, h3⟩, -⟩ := hd
  rw [State.decodeArm, if_neg (not_or.2 ⟨Ne.symm h1, h2⟩), if_neg h3, if_pos rfl]

/-- An entry of a list of computed words written over an array. -/
theorem overlay_map_range_getElem {α : Type} {n : Nat} (m : Nat) (g : Nat → α) (v : Vector α n) (k : Nat) (hk : k < n) :
    (overlay ((List.range m).map g) v)[k] = if k < m then g k else v[k] := by
  rw [overlay_getElem]
  by_cases hlt : k < m <;> simp [hlt]

/-- A read-variable response with the fields its LEN covers: the message, entry by entry (R142). -/
theorem conclude_decodeRvar_message (s : State) {body : List Byte} (h : rvarFits body = true) :
    ∃ m : Msg, conclude (s.decodeRvar body) =
        { s with rxBuf := [], rxOff := 0, rxStatus := .msg, rxResult := .received, msg := m } ∧
      m.kind = .rvarResp ∧ m.addr = word (fieldAt body 4) (fieldAt body 5) ∧ m.bytelen = fieldAt body 6 ∧
      ∀ (k : Nat) (hk : k < 252), m.data[k] =
        if k < ceil2 (fieldAt body 6).toNat then word (fieldAt body (7 + 2 * k)) (fieldAt body (8 + 2 * k))
        else s.msg.data[k] := by
  rw [State.decodeRvar, if_pos h]
  exact ⟨_, rfl, rfl, rfl, rfl, fun k hk => overlay_map_range_getElem _ _ _ k hk⟩

/-- A read-register response with the fields its LEN covers (R143). -/
theorem conclude_decodeRreg_message (s : State) {body : List Byte} (h : rregFits body = true) :
    ∃ m : Msg, conclude (s.decodeRreg body) =
        { s with rxBuf := [], rxOff := 0, rxStatus := .msg, rxResult := .received, msg := m } ∧
      m.kind = .rregResp ∧ m.addr = (fieldAt body 4).setWidth 16 ∧ m.bytelen = fieldAt body 5 ∧
      ∀ (k : Nat) (hk : k < 252), m.data[k] =
        if k < (fieldAt body 5).toNat then (fieldAt body (6 + k)).setWidth 16 else s.msg.data[k] := by
  rw [State.decodeRreg, if_pos h]
  exact ⟨_, rfl, rfl, rfl, rfl, fun k hk => overlay_map_range_getElem _ _ _ k hk⟩

theorem Msg.zero_data (k : Nat) (hk : k < 252) : Msg.zero.data[k] = 0 := Vector.getElem_replicate hk

/-! ### The POLL that completes a frame -/

/-- The POLL whose byte completes the frame `f`: LEN is the length of the body, and the arm of `f`'s command byte runs on
it (R138, R139). -/
theorem ReceiveInv.execPoll_completes {s : State} {b : Byte} {rest f : List Byte} (h : ReceiveInv s) (h3 : 3 ≤ s.rxOff)
    (hc : s.rxChan = b :: rest) (hlast : s.rxOff + 1 = 3 + (s.rxRead 2).toNat) (hf : f = s.rxBytes 0 s.rxOff ++ [b]) :
    ∃ body, (∀ k, 4 ≤ k → f.getD k 0 = fieldAt body k) ∧ (s.rxRead 2).toNat = bodyLen body ∧
      exec .poll s = .next (conclude ((s.polled rest).decodeArm (f.getD 3 0) body)) := by
  obtain ⟨t, ht, hr⟩ := (h.polled rest).receive b
  rw [exec_poll, execPoll_receive hc (.inr (.inl (by omega))), ht]
  have hlast' : (s.polled rest).rxOff + 1 = 3 + ((s.polled rest).rxRead 2).toNat := hlast
  cases hr with
  | noise h0 => simp only [State.polled_rxOff] at h0; omega
  | stored _ _ hmore => exact absurd hlast' (hmore h3)
  | badHeader h2 | badLength h2 => simp only [State.polled_rxOff] at h2; omega
  | decoded _ _ cmd body _ hframe =>
    replace hframe : f = frameBytes s.cfg cmd body := hf.trans hframe
    have hlen := congrArg List.length (hf.symm.trans hframe)
    simp only [List.length_append, State.rxBytes_length, frameBytes_length, List.length_singleton] at hlen
    exact ⟨body, fun k hk => by rw [hframe, frameBytes_getD _ _ _ k hk], by omega, by rw [hframe]; rfl⟩

/-- Settles O21: the arms of R140, R141 and R144 on the completed frame. -/
theorem pollSwallowsOrDropsTheFrame : Obligations.PollSwallowsOrDropsTheFrame := by
  intro s b rest f L cmd ack hinv h3 hc hL hlast hf hcmd hack
  subst hL
  obtain ⟨body, hfield, hlen, hpoll⟩ := (ReceiveInv.of s hinv).execPoll_completes h3 hc hlast hf
  have hackBody : ack ↔ (cmd = s.cfg.cWreg ∨ cmd = s.cfg.cWvar) ∧ isAckBody body = true := by
    rw [hack, hfield 4 (by omega), hfield 5 (by omega), hlen, isAckBody, decide_eq_true_iff]
  rw [hpoll, ← hcmd]
  refine ⟨fun h => ?_, fun hwrite h => ?_, fun hwreg hrreg hwvar hrvar => ?_⟩
  · obtain ⟨hwrite, hbody⟩ := hackBody.1 h
    rw [conclude_decodeArm_ack (s := s.polled rest) hwrite hbody]
  · rw [conclude_decodeArm_notAck (s := s.polled rest) hwrite fun hbody => h (hackBody.2 ⟨hwrite, hbody⟩)]
  · rw [conclude_decodeArm_unknown (s := s.polled rest) hwreg hrreg hwvar hrvar]

/-- Settles O22: the arm of R142 on the completed frame, from a zero `msg`. -/
theorem pollDecodesVariableResponse : Obligations.PollDecodesVariableResponse := by
  intro s b rest f L W hinv h3 hc hL hlast hf hcmd hW
  subst hL hW
  obtain ⟨body, hfield, hlen, hpoll⟩ := (ReceiveInv.of s hinv).execPoll_completes h3 hc hlast hf
  have hfits := rvarFits_iff body
  rw [← hlen, ← hfield 6 (by omega), ceil2] at hfits
  have harm := State.decodeArm_rvar (s := s.polled rest) hinv.1 body
  rw [State.polled_cfg] at harm
  rw [hpoll, hcmd, harm]
  refine ⟨fun hshort => ?_, fun h4 hlong => ?_⟩
  · rw [State.decodeRvar, if_neg (by rw [hfits]; omega), conclude_drop]
  · obtain ⟨m, hm, hkind, haddr, hbl, hdata⟩ := conclude_decodeRvar_message (s.polled rest) (hfits.2 ⟨h4, hlong⟩)
    refine ⟨m, congrArg _ hm, hkind, ?_, ?_, fun k hk => ?_⟩
    · rw [haddr, hfield 4 (by omega), hfield 5 (by omega)]
    · rw [hbl, hfield 6 (by omega)]
    · rw [hdata k hk, hfield 6 (by omega), hfield _ (by omega), hfield _ (by omega), State.polled_msg, Msg.zero_data k hk]
      rfl

/-- Settles O23: the arm of R143 on the completed frame, from a zero `msg`. -/
theorem pollDecodesRegisterResponse : Obligations.PollDecodesRegisterResponse := by
  intro s b rest f L BL hinv h3 hc hL hlast hf hcmd hBL
  subst hL hBL
  obtain ⟨body, hfield, hlen, hpoll⟩ := (ReceiveInv.of s hinv).execPoll_completes h3 hc hlast hf
  have hfits := rregFits_iff body
  rw [← hlen, ← hfield 5 (by omega)] at hfits
  have harm := State.decodeArm_rreg (s := s.polled rest) hinv.1 body
  rw [State.polled_cfg] at harm
  rw [hpoll, hcmd, harm]
  refine ⟨fun hshort => ?_, fun h3 hlong => ?_⟩
  · rw [State.decodeRreg, if_neg (by rw [hfits]; omega), conclude_drop]
  · obtain ⟨m, hm, hkind, haddr, hbl, hdata⟩ := conclude_decodeRreg_message (s.polled rest) (hfits.2 ⟨h3, hlong⟩)
    refine ⟨m, congrArg _ hm, hkind, ?_, ?_, fun k hk => ?_⟩
    · rw [haddr, hfield 4 (by omega)]
    · rw [hbl, hfield 5 (by omega)]
    · rw [hdata k hk, hfield 5 (by omega), hfield _ (by omega), State.polled_msg, Msg.zero_data k hk]

theorem stored_eq {s : State} {n : Nat} (h : s.rxOff = n) (b : Byte) :
    stored s b = { s with rxBuf := s.rxBuf.write n b, rxOff := n + 1 } := by
  rw [← h, stored]

/-- Settles O19: of the ways a byte is received, three are possible at offset 2. -/
theorem threeByteCheckpoint : Obligations.ThreeByteCheckpoint := by
  intro s b rest hinv h2 hc
  have hinv := (ReceiveInv.of s hinv).polled rest
  obtain ⟨t, ht, hr⟩ := hinv.receive b
  have h2' : (s.polled rest).rxOff = 2 := h2
  rw [exec_poll, execPoll_receive hc (.inr (.inl (by omega))), ht]
  cases hr with
  | noise h0 => omega
  | decoded h3 => omega
  | badHeader _ hh => exact ⟨fun _ => rfl, fun hh' => absurd hh' hh, fun hh' => absurd hh' hh⟩
  | badLength _ hh hlen =>
    simp only [State.polled_cfg] at hlen
    exact ⟨fun hh' => absurd hh hh', fun _ _ => rfl, fun _ h1 h3 => by omega⟩
  | stored _ hcheck =>
    obtain ⟨hh, h1, h3⟩ := hcheck h2'
    simp only [State.polled_rxRead, State.polled_cfg] at hh h3
    refine ⟨fun hh' => absurd hh hh', fun _ hlen => by omega, fun _ _ _ => ⟨s.rxBuf.write 2 b, ?_, fun i => ?_⟩⟩
    · rw [stored_eq h2']
      rfl
    · exact Memory.read_write hinv.buf.1 2 i b

end Sys2Proof.Machine

/-! PROOFS. Maps of the state that the receive operations do not see (R61, R25, R132), and the equivalence of the two paths
(R149). -/

namespace Sys2Proof.Machine

open Host (Outcome)

/-! ### Maps that commute with the receive operations -/

/-- An outcome with its next state mapped. -/
def mapNext (φ : State → State) : Outcome State Fault Refusal → Outcome State Fault Refusal
  | .next s => .next (φ s)
  | .fault f => .fault f
  | .refused r => .refused r

/-- A map of the state that neither the channel nor the reception of a byte sees. -/
structure CommutesWithReceive (φ : State → State) : Prop where
  chan : ∀ s, (φ s).rxChan = s.rxChan
  withChan : ∀ s chan, { φ s with rxChan := chan } = φ { s with rxChan := chan }
  stepByte : ∀ s b, (φ s).stepByte b = (s.stepByte b).map (·.map φ id)
  conclude : ∀ r : State × StepResult, Machine.conclude (r.map φ id) = φ (Machine.conclude r)

theorem CommutesWithReceive.receive {φ : State → State} (h : CommutesWithReceive φ) (s : State) (b : Byte) :
    (φ s).receive b = mapNext φ (s.receive b) := by
  have hstep := h.stepByte s b
  cases hs : s.stepByte b with
  | error f =>
    rw [hs] at hstep
    rw [State.receive_error hstep, State.receive_error hs, mapNext]
  | ok r =>
    rw [hs] at hstep
    rw [State.receive_ok hstep, State.receive_ok hs, mapNext, h.conclude]

theorem CommutesWithReceive.takeBytes {φ : State → State} (h : CommutesWithReceive φ) (n : Nat) (s : State) :
    (φ s).takeBytes n = mapNext φ (s.takeBytes n) := by
  induction n generalizing s with
  | zero => rfl
  | succ n ih =>
    have hchan := h.chan s
    cases hc : s.rxChan with
    | nil =>
      rw [hc] at hchan
      rw [State.takeBytes, State.takeBytes, State.chanTake_nil hc, State.chanTake_nil hchan, mapNext]
    | cons b rest =>
      rw [hc] at hchan
      rw [State.takeBytes_cons hc, State.takeBytes_cons hchan, h.withChan, h.stepByte]
      cases State.stepByte { s with rxChan := rest } b with
      | error f => rfl
      | ok r => simp only [Except.map, h.conclude, ih]

theorem conclude_map {φ : State → State} (h : ∀ s, ({ φ s with rxResult := .received } : State) =
    φ { s with rxResult := .received }) (r : State × StepResult) : conclude (r.map φ id) = φ (conclude r) := by
  obtain ⟨s, res⟩ := r
  cases res with
  | pending | nothing => rfl
  | message => exact h s

/-- Nothing a byte does depends on the transmit half (R61). -/
theorem commutesWithReceive_withTxOf (u : State) : CommutesWithReceive (·.withTxOf u) where
  chan _ := rfl
  withChan _ _ := rfl
  stepByte s b := s.stepByte_withTxOf u b
  conclude := conclude_withTxOf u

theorem State.decodeArm_withFastpath (s : State) (v : Bool) (cmd : Byte) (body : List Byte) :
    (s.withFastpath v).decodeArm cmd body = (s.decodeArm cmd body).map (·.withFastpath v) id := by
  simp only [State.decodeArm, State.decodeRvar, State.decodeRreg,
    apply_ite (Prod.map (State.withFastpath · v) id)]
  rfl

theorem State.afterStore_withFastpath (s : State) (v : Bool) :
    (s.withFastpath v).afterStore = s.afterStore.map (·.withFastpath v) id := by
  have hcheck : (s.withFastpath v).checkpoint = s.checkpoint := rfl
  have hread : (s.withFastpath v).rxRead 2 = s.rxRead 2 := rfl
  simp only [State.afterStore, State.withFastpath_rxOff, hcheck, hread]
  split
  · split <;> rfl
  · split
    · exact s.decodeArm_withFastpath v _ _
    · rfl

/-- STEP does not read FASTPATH: only the number of bytes a POLL takes depends on it (R132). -/
theorem commutesWithReceive_withFastpath (v : Bool) : CommutesWithReceive (·.withFastpath v) where
  chan _ := rfl
  withChan _ _ := rfl
  stepByte s b := by
    by_cases hnoise : s.rxOff = 0 ∧ b ≠ s.cfg.h1
    · rw [State.stepByte_noise hnoise, State.stepByte_noise (s := s.withFastpath v) hnoise]
      rfl
    by_cases hcap : s.rxOff < s.cfg.rxCap
    · rw [State.stepByte_stored hnoise hcap, State.stepByte_stored (s := s.withFastpath v) hnoise hcap]
      exact congrArg Except.ok ((stored s b).afterStore_withFastpath v)
    · rw [State.stepByte_overflow hnoise hcap, State.stepByte_overflow (s := s.withFastpath v) hnoise hcap]
      rfl
  conclude := conclude_map fun _ => rfl

/-! ### Runs of POLLs to an empty channel -/

theorem drain_empty {s : State} (h : s.rxChan = []) (n : Nat) : drain s n = some ([], s) := by
  cases n with
  | zero => rfl
  | succ n => simp [drain, State.chanAvail, h]

theorem drain_succ {s t : State} (hc : s.rxChan ≠ []) (h : execPoll s = .next t) (n : Nat) :
    drain s (n + 1) = (drain t n).map fun r => (t.produced ++ r.1, r.2) := by
  have havail : s.chanAvail ≠ 0 := by simpa [State.chanAvail] using hc
  simp only [drain, if_neg havail, exec_poll, h]

/-- A POLL that produces no message adds nothing to a run's messages. -/
theorem drain_succ_of_nothing {s t : State} (hc : s.rxChan ≠ []) (h : execPoll s = .next t) (ht : t.rxResult = .nothing)
    (n : Nat) : drain s (n + 1) = drain t n := by
  rw [drain_succ hc h, State.produced, ht]
  simp

/-- Off the fast path, bytes that the byte loop takes without a message are taken alike by as many POLLs: STEP never
undoes RECEIVED, so no POLL on the way produces a message. -/
theorem drain_of_takeBytes {n : Nat} {s t : State} (hslow : s.cfg.fastpath = false) (hn : n ≤ s.rxChan.length)
    (hmsg : s.msg = Msg.zero) (h : s.takeBytes n = .next t) (ht : t.rxResult = .nothing) (k : Nat) :
    drain s (n + k) = drain t k := by
  induction n generalizing s with
  | zero =>
    obtain rfl := Outcome.next.inj h
    rw [Nat.zero_add]
  | succ n ih =>
    obtain ⟨b, rest, hc⟩ := List.exists_cons_of_length_pos (Nat.lt_of_lt_of_le (Nat.succ_pos n) hn)
    have hs : s.rxResult = .nothing := by
      obtain ⟨-, -, -, -, -, -, -, hback⟩ := takeBytes_frame _ _ _ h
      exact (hback ht).2
    have hpolled : ({ s with rxChan := rest } : State) = s.polled rest := by
      rw [State.polled, ← hmsg, ← hs]
    rw [State.takeBytes_cons hc, hpolled] at h
    cases hstep : (s.polled rest).stepByte b with
    | error f => rw [hstep] at h; cases h
    | ok r =>
      rw [hstep] at h
      have hu := State.receive_ok hstep
      obtain ⟨-, -, -, -, -, -, -, hback⟩ := takeBytes_frame _ _ _ h
      have hnothing := (hback ht).2
      obtain ⟨⟨hcfg, hchan, -⟩, hkeep⟩ := State.receive_frame hu
      rw [← execPoll_receive hc (.inl hslow)] at hu
      rw [Nat.add_right_comm, drain_succ_of_nothing (by rw [hc]; exact List.cons_ne_nil b rest) hu hnothing]
      rw [hc, List.length_cons] at hn
      exact ih (by rw [hcfg]; exact hslow) (by rw [hchan, State.polled_rxChan]; omega) (hkeep hnothing).1 h

/-- A POLL of a channel that holds bytes overwrites the old message before anything reads it (R148). -/
theorem drain_beginPoll {s : State} (hc : s.rxChan ≠ []) (n : Nat) : drain s (n + 1) = drain s.beginPoll (n + 1) := by
  have havail : s.chanAvail ≠ 0 := by simpa [State.chanAvail] using hc
  have havail' : s.beginPoll.chanAvail ≠ 0 := havail
  simp only [drain, if_neg havail, if_neg havail']
  rfl

/-- On both paths, every sufficient number of POLLs drains the channel of `s` with the same messages to the same state. -/
def DrainsAlike (s : State) : Prop :=
  ∃ (msgs : List Msg) (t : State), t.rxChan = [] ∧ ∀ n, s.rxChan.length ≤ n →
    drain (s.withFastpath true) n = some (msgs, t.withFastpath true) ∧
    drain (s.withFastpath false) n = some (msgs, t.withFastpath false)

section

variable {s t : State} {b : Byte} {rest : List Byte}

theorem State.receive_withFastpath (h : (s.polled rest).receive b = .next t) (v : Bool) :
    ((s.withFastpath v).polled rest).receive b = .next (t.withFastpath v) := by
  have hcomm := (commutesWithReceive_withFastpath v).receive (s.polled rest) b
  rwa [h] at hcomm

theorem State.takeBytes_withFastpath {n : Nat} (h : s.beginPoll.takeBytes n = .next t) (v : Bool) :
    (s.withFastpath v).beginPoll.takeBytes n = .next (t.withFastpath v) := by
  have hcomm := (commutesWithReceive_withFastpath v).takeBytes n s.beginPoll
  rwa [h] at hcomm

theorem DrainsAlike.of_empty (hc : s.rxChan = []) : DrainsAlike s :=
  ⟨[], s, hc, fun n _ =>
    ⟨drain_empty (s := s.withFastpath true) hc n, drain_empty (s := s.withFastpath false) hc n⟩⟩

/-- Where the fast path receives one byte, so does the slow path. -/
theorem DrainsAlike.of_receive (hc : s.rxChan = b :: rest)
    (hfast : execPoll (s.withFastpath true) = ((s.withFastpath true).polled rest).receive b)
    (ht : (s.polled rest).receive b = .next t) (hruns : DrainsAlike t) : DrainsAlike s := by
  obtain ⟨-, hchan, -⟩ := (State.receive_frame ht).1
  have hne : s.rxChan ≠ [] := hc ▸ List.cons_ne_nil b rest
  have hslow := execPoll_receive (s := s.withFastpath false) hc (.inl rfl)
  rw [State.receive_withFastpath ht] at hfast hslow
  obtain ⟨msgs, u, hu, hruns⟩ := hruns
  rw [hchan, State.polled_rxChan] at hruns
  refine ⟨t.produced ++ msgs, u, hu, fun n hn => ?_⟩
  rw [hc, List.length_cons] at hn
  obtain ⟨k, rfl⟩ := Nat.exists_eq_add_of_le' (Nat.le_of_add_left_le hn)
  obtain ⟨htrue, hfalse⟩ := hruns k (by omega)
  rw [drain_succ (s := s.withFastpath true) hne hfast, drain_succ (s := s.withFastpath false) hne hslow, htrue, hfalse]
  exact ⟨rfl, rfl⟩

/-- Where the fast path takes `m` bytes without a message, `m` slow POLLs leave the same state (R133). -/
theorem DrainsAlike.of_takeBytes {m : Nat} (hm0 : 1 ≤ m) (hm : m ≤ s.rxChan.length)
    (hfast : execPoll (s.withFastpath true) = (s.withFastpath true).beginPoll.takeBytes m)
    (ht : s.beginPoll.takeBytes m = .next t) (hchan : t.rxChan = s.rxChan.drop m) (hnothing : t.rxResult = .nothing)
    (hruns : DrainsAlike t) : DrainsAlike s := by
  have hne : s.rxChan ≠ [] := List.ne_nil_of_length_pos (by omega)
  rw [State.takeBytes_withFastpath ht] at hfast
  obtain ⟨msgs, u, hu, hruns⟩ := hruns
  rw [hchan, List.length_drop] at hruns
  refine ⟨msgs, u, hu, fun n hn => ⟨?_, ?_⟩⟩
  · obtain ⟨k, rfl⟩ : ∃ k, n = k + 1 := ⟨n - 1, by omega⟩
    rw [drain_succ_of_nothing (s := s.withFastpath true) hne hfast hnothing]
    exact (hruns k (by omega)).1
  · obtain ⟨k, rfl⟩ : ∃ k, n = m + k := ⟨n - m, by omega⟩
    have hslow := drain_of_takeBytes (s := (s.withFastpath false).beginPoll) rfl hm rfl
      (State.takeBytes_withFastpath ht false) hnothing k
    obtain ⟨j, hj⟩ : ∃ j, m + k = j + 1 := ⟨m + k - 1, by omega⟩
    rw [hj, drain_beginPoll (s := s.withFastpath false) hne, ← hj, hslow]
    exact (hruns k (by omega)).2

end

/-- By induction on the channel's length, a POLL of the fast path at a time: the bytes of the literal prefixes hold no
message (R132, R133, R149). -/
theorem ReceiveInv.drainsAlike {s : State} (h : ReceiveInv s) : DrainsAlike s := by
  induction hlen : s.rxChan.length using Nat.strong_induction_on generalizing s with
  | _ len ih =>
  cases hc : s.rxChan with
  | nil => exact .of_empty hc
  | cons b rest =>
    rcases execPoll_cases (s := s.withFastpath true) hc with hfast | ⟨h0, m, h2, h4, hm, hfast⟩
    · obtain ⟨t, ht, hr⟩ := (h.polled rest).receive b
      obtain ⟨-, hchan, -⟩ := (State.receive_frame ht).1
      rw [State.polled_rxChan] at hchan
      rw [hc, List.length_cons] at hlen
      exact .of_receive hc hfast ht (ih rest.length (by omega) (hr.inv (h.polled rest)) (by rw [hchan]))
    · have hbegin : ReceiveInv s.beginPoll := h.polled s.rxChan
      obtain ⟨t, ht, hinv, hchan, hnothing, -⟩ := hbegin.takeBytes hm
      replace h0 : s.beginPoll.rxOff = 0 := h0
      replace hm : m ≤ s.rxChan.length := hm
      exact .of_takeBytes (by omega) hm hfast ht hchan (hnothing (by omega) rfl)
        (ih (len - m) (by omega) hinv (by rw [hchan, List.length_drop, State.beginPoll_rxChan, hlen]))

/-- Settles O27: the run of `drain` with exactly as many POLLs as the channel holds bytes. -/
theorem fastPathEqualsSlowPath : Obligations.FastPathEqualsSlowPath := by
  intro s hinv
  obtain ⟨msgs, t, hchan, hruns⟩ := (ReceiveInv.of s hinv).drainsAlike
  obtain ⟨hfast, hslow⟩ := hruns _ le_rfl
  exact ⟨msgs, t, hfast, hslow, hchan⟩

end Sys2Proof.Machine

/-! PROOFS. Framing (R150), resynchronization (R151) and waiting (R152). -/

namespace Sys2Proof.Machine

open Host (Outcome)

/-! ### A message comes from a frame (R150) -/

/-- Only the arms of the two responses produce a message. -/
theorem classify_of_received {s : State} {cmd : Byte} {body : List Byte} (hs : s.rxResult = .nothing)
    (h : (conclude (s.decodeArm cmd body)).rxResult = .received) :
    classify s.cfg cmd body = .rxRvarResp body ∨ classify s.cfg cmd body = .rxRregResp body := by
  by_cases hwrite : cmd = s.cfg.cWreg ∨ cmd = s.cfg.cWvar
  · by_cases hack : isAckBody body = true
    · rw [conclude_decodeArm_ack hwrite hack, hs] at h
      cases h
    · rw [conclude_decodeArm_notAck hwrite hack, hs] at h
      cases h
  obtain ⟨hwreg, hwvar⟩ := not_or.1 hwrite
  rw [classify, if_neg hwreg, if_neg hwvar]
  by_cases hrvar : cmd = s.cfg.cRvar
  · exact .inl (if_pos hrvar)
  rw [if_neg hrvar]
  by_cases hrreg : cmd = s.cfg.cRreg
  · exact .inr (if_pos hrreg)
  · rw [conclude_decodeArm_unknown hwreg hrreg hwvar hrvar, hs] at h
    cases h

/-- The byte that produces a message completes the frame of a response. -/
theorem Receives.of_received {s t : State} {b : Byte} (hr : Receives s b t) (hs : s.rxResult = .nothing)
    (ht : t.rxResult = .received) :
    3 ≤ s.rxOff ∧ ∃ body, decodeFrame s.cfg (s.rxBytes 0 s.rxOff ++ [b]) = .ok (.rxRvarResp body) ∨
      decodeFrame s.cfg (s.rxBytes 0 s.rxOff ++ [b]) = .ok (.rxRregResp body) := by
  cases hr with
  | noise | stored | badHeader | badLength => exact nomatch hs.symm.trans ht
  | decoded h3 _ cmd body hfits hframe =>
    rw [hframe, decodeFrame_frameBytes _ _ _ hfits]
    exact ⟨h3, body, (classify_of_received hs ht).imp (congrArg _) (congrArg _)⟩

/-- A POLL that produces a message received one byte: the literal prefixes are too short to hold a response. -/
theorem ReceiveInv.execPoll_received {s t : State} (h : ReceiveInv s) (hpoll : execPoll s = .next t)
    (ht : t.rxResult = .received) :
    ∃ b, s.rxChan = b :: t.rxChan ∧ Receives (s.polled t.rxChan) b t := by
  cases hc : s.rxChan with
  | nil =>
    rw [execPoll_empty hc, Outcome.next.injEq] at hpoll
    subst hpoll
    cases ht
  | cons b rest =>
    rcases execPoll_cases hc with hone | ⟨h0, n, -, h4, hn, hmany⟩
    · obtain ⟨u, hu, hr⟩ := (h.polled rest).receive b
      rw [hone, hu, Outcome.next.injEq] at hpoll
      subst hpoll
      obtain ⟨-, hchan, -⟩ := (State.receive_frame hu).1
      rw [State.polled_rxChan] at hchan
      exact ⟨b, by rw [hchan], by rw [hchan]; exact hr⟩
    · have hbegin : ReceiveInv s.beginPoll := h.polled s.rxChan
      obtain ⟨u, hu, -, -, hnothing, -⟩ := hbegin.takeBytes hn
      rw [hmany, hu, Outcome.next.injEq] at hpoll
      subst hpoll
      rw [hnothing (by rw [State.beginPoll_rxOff]; omega) rfl] at ht
      cases ht

/-! ### Noise (R134, R151) -/

/-- POLLs over bytes that are not `H1`, from an empty buffer: each is noise, and only the channel is the shorter. -/
theorem pollTimes_noise {noise : List Byte} {s : State} {chan : List Byte} (hc : s.rxChan = noise ++ chan)
    (h0 : s.rxOff = 0) (hnoise : s.cfg.h1 ∉ noise) (hne : noise ≠ []) :
    pollTimes s noise.length = .next ((s.polled chan).setRxStatus .noise) := by
  induction noise generalizing s with
  | nil => exact absurd rfl hne
  | cons b noise ih =>
    obtain ⟨hb, hnoise⟩ := List.ne_and_not_mem_of_not_mem_cons hnoise
    have hpoll := execPoll_noise hc h0 (Ne.symm hb)
    rw [List.length_cons, pollTimes, exec_poll, hpoll]
    cases noise with
    | nil => rfl
    | cons b' noise => exact ih (s := (s.polled (b' :: noise ++ chan)).setRxStatus .noise) rfl h0 hnoise (List.cons_ne_nil _ _)

/-- A channel with no `H1` is polled empty without a message. -/
theorem drain_noise {chan : List Byte} {s : State} (hc : s.rxChan = chan) (h0 : s.rxOff = 0) (hnoise : s.cfg.h1 ∉ chan) :
    ∃ t, drain s chan.length = some ([], t) ∧ t.rxChan = [] ∧ t.rxOff = 0 := by
  induction chan generalizing s with
  | nil => exact ⟨s, rfl, hc, h0⟩
  | cons b chan ih =>
    obtain ⟨hb, hnoise⟩ := List.ne_and_not_mem_of_not_mem_cons hnoise
    have hpoll := execPoll_noise hc h0 (Ne.symm hb)
    rw [List.length_cons, drain_succ_of_nothing (by rw [hc]; exact List.cons_ne_nil b chan) hpoll rfl]
    exact ih rfl h0 hnoise

/-- Settles O28: the byte that produced the message completed a response; noise by induction over the channel. -/
theorem framingRobustness : Obligations.FramingRobustness := by
  intro s hinv
  have h := ReceiveInv.of s hinv
  refine ⟨fun t hpoll ht => ?_, fun h0 b rest hc hb => ?_, fun h0 hno => drain_noise rfl h0 hno⟩
  · obtain ⟨b, hc, hr⟩ := h.execPoll_received hpoll ht
    obtain ⟨h3, body, hdecode⟩ := hr.of_received rfl ht
    replace h3 : 3 ≤ s.rxOff := h3
    obtain ⟨hhead, hrest⟩ := h.frame
    exact ⟨hhead (by omega), (hrest h3).1, h3, b, body, hc, hdecode⟩
  · exact ⟨_, execPoll_noise hc h0 hb, rfl, h0, rfl, rfl⟩

/-! ### Resynchronization (R151) -/

/-- A POLL leaves IDLE, ACCUM or an empty buffer. -/
theorem ReceiveInv.execPoll_empties {s t : State} (h : ReceiveInv s) (hpoll : execPoll s = .next t)
    (hidle : t.rxStatus ≠ .idle) (haccum : t.rxStatus ≠ .accum) : t.rxBuf = [] ∧ t.rxOff = 0 := by
  cases hc : s.rxChan with
  | nil =>
    rw [execPoll_empty hc, Outcome.next.injEq] at hpoll
    subst hpoll
    exact absurd rfl hidle
  | cons b rest =>
    refine Or.resolve_left ?_ haccum
    rcases execPoll_cases hc with hone | ⟨-, n, h2, -, hn, hmany⟩
    · obtain ⟨u, hu, hr⟩ := (h.polled rest).receive b
      rw [hone, hu, Outcome.next.injEq] at hpoll
      exact hpoll ▸ hr.accum_or_empty (h.polled rest)
    · have hbegin : ReceiveInv s.beginPoll := h.polled s.rxChan
      obtain ⟨u, hu, -, -, -, hstatus⟩ := hbegin.takeBytes hn
      rw [hmany, hu, Outcome.next.injEq] at hpoll
      exact hpoll ▸ hstatus (by omega)

/-- At an empty buffer `H1` is stored as the first byte of a frame. -/
theorem ReceiveInv.stepByte_h1 {s : State} (h : ReceiveInv s) (h0 : s.rxOff = 0) :
    ∃ u, s.stepByte s.cfg.h1 = .ok (u, .pending) ∧ u.rxOff = 1 ∧ u.rxRead 0 = s.cfg.h1 ∧ u.rxStatus = .accum := by
  rcases stepByte_cases h s.cfg.h1 with ⟨-, hb, -⟩ | ⟨-, -, -, -, hs⟩ | ⟨h2, -⟩ | ⟨h2, -⟩ | ⟨h3, -⟩
  · exact absurd rfl hb
  · refine ⟨_, hs, congrArg (· + 1) h0, ?_, rfl⟩
    exact (stored_read h s.cfg.h1 0).trans (if_pos h0.symm)
  all_goals omega

/-- Settles O30: the POLL that ends with neither IDLE nor ACCUM, and the noise before the next `H1`. -/
theorem implicitResynchronization : Obligations.ImplicitResynchronization := by
  refine ⟨fun s t hinv => (ReceiveInv.of s hinv).execPoll_empties, fun s noise rest hinv h0 hnoise hc => ?_⟩
  have h := ReceiveInv.of s hinv
  by_cases hne : noise = []
  · subst hne
    exact ⟨s, rfl, hc, h0, fun hne => absurd rfl hne, h.stepByte_h1 h0⟩
  · have hinv' := (h.polled (s.cfg.h1 :: rest)).setRxStatus .noise
    exact ⟨_, pollTimes_noise hc h0 hnoise hne, rfl, h0, fun _ => rfl, hinv'.stepByte_h1 h0⟩

/-! ### No timeout (R152) -/

/-- The same parameters, channel and partial frame. -/
def SamePartialFrame (s t : State) : Prop :=
  t.cfg = s.cfg ∧ t.rxChan = s.rxChan ∧ t.rxBuf = s.rxBuf ∧ t.rxOff = s.rxOff

theorem SamePartialFrame.trans {s t u : State} (hst : SamePartialFrame s t) (htu : SamePartialFrame t u) :
    SamePartialFrame s u := by
  obtain ⟨a1, a2, a3, a4⟩ := hst
  obtain ⟨b1, b2, b3, b4⟩ := htu
  exact ⟨b1.trans a1, b2.trans a2, b3.trans a3, b4.trans a4⟩

/-- A SEND, or a POLL that finds the channel empty, leaves a partial frame as it is. -/
theorem exec_samePartialFrame {s : State} {r : Request} (hc : s.rxChan = []) (hr : r = .poll ∨ ∃ q, r = .send q) :
    ∃ t, exec (decodeRequest r) s = .next t ∧ SamePartialFrame s t := by
  rcases hr with rfl | ⟨q, rfl⟩
  · exact ⟨_, execPoll_empty hc, rfl, rfl, rfl, rfl⟩
  · obtain ⟨t, ht, hcfg, hbuf, hoff, -, -, -, hchan⟩ := (sendsAlike_decodeSend q).sameRx s
    exact ⟨t, ht, hcfg.symm, hchan.symm, hbuf.symm, hoff.symm⟩

theorem runRequests_samePartialFrame {rs : List Request} {s : State} (hc : s.rxChan = [])
    (hrs : ∀ r ∈ rs, r = .poll ∨ ∃ q, r = .send q) : ∃ t, runRequests s rs = .next t ∧ SamePartialFrame s t := by
  induction rs generalizing s with
  | nil => exact ⟨s, rfl, rfl, rfl, rfl, rfl⟩
  | cons r rs ih =>
    obtain ⟨hr, hrs⟩ := List.forall_mem_cons.1 hrs
    obtain ⟨u, hu, hsu⟩ := exec_samePartialFrame hc hr
    have ⟨_, hchan, _⟩ := hsu
    obtain ⟨t, ht, hut⟩ := ih (hchan.trans hc) hrs
    exact ⟨t, by rw [runRequests, hu, ← ht], hsu.trans hut⟩

/-- STEP overwrites `rx_status` without reading it (R25). -/
theorem State.stepByte_setRxStatus (s : State) (c : RxStatus) (b : Byte) :
    (s.setRxStatus c).stepByte b = s.stepByte b := by
  by_cases hnoise : s.rxOff = 0 ∧ b ≠ s.cfg.h1
  · rw [State.stepByte_noise hnoise, State.stepByte_noise (s := s.setRxStatus c) hnoise]
    rfl
  by_cases hcap : s.rxOff < s.cfg.rxCap
  · rw [State.stepByte_stored hnoise hcap, State.stepByte_stored (s := s.setRxStatus c) hnoise hcap]
    rfl
  · rw [State.stepByte_overflow hnoise hcap, State.stepByte_overflow (s := s.setRxStatus c) hnoise hcap]
    rfl

theorem State.takeBytes_setRxStatus {s : State} (hc : s.rxChan ≠ []) (c : RxStatus) {n : Nat} (hn : n ≠ 0) :
    (s.setRxStatus c).takeBytes n = s.takeBytes n := by
  obtain ⟨b, rest, hc⟩ := List.exists_cons_of_ne_nil hc
  obtain ⟨m, rfl⟩ := Nat.exists_eq_succ_of_ne_zero hn
  have hstep := State.stepByte_setRxStatus { s with rxChan := rest } c b
  rw [State.takeBytes_cons hc, State.takeBytes_cons (s := s.setRxStatus c) hc, ← hstep]
  rfl

theorem State.pollTake_ne_zero (s : State) : s.pollTake ≠ 0 := by
  by_cases hslow : s.cfg.fastpath = false ∨ s.rxOff ≠ 0 ∨ s.fastPre = none
  · rw [State.pollTake_slow hslow]
    exact Nat.one_ne_zero
  · push Not at hslow
    obtain ⟨hf, h0, hpre⟩ := hslow
    obtain ⟨pre, hpre⟩ := Option.ne_none_iff_exists'.1 hpre
    have hlen := fastPrefix_length hpre
    rw [State.pollTake_literal (by simpa using hf) h0 hpre]
    omega

theorem State.takeBytes_ne_refused (s : State) (n : Nat) (r : Refusal) : s.takeBytes n ≠ .refused r := by
  induction n generalizing s with
  | zero => exact nofun
  | succ n ih =>
    cases hc : s.rxChan with
    | nil => rw [State.takeBytes, State.chanTake_nil hc]; exact nofun
    | cons b rest =>
      rw [State.takeBytes_cons hc]
      cases State.stepByte { s with rxChan := rest } b with
      | error f => exact nofun
      | ok u => exact ih _

/-- A POLL of a channel that holds bytes reads nothing but the parameters, the channel and the partial frame. -/
theorem execPoll_samePartialFrame {s t : State} (h : SamePartialFrame s t) (hc : s.rxChan ≠ []) :
    execPoll t = mapNext (·.withTxOf t) (execPoll s) := by
  obtain ⟨hcfg, hchan, hbuf, hoff⟩ := h
  obtain ⟨b, rest, hc'⟩ := List.exists_cons_of_ne_nil hc
  have hbegin : t.beginPoll = (s.beginPoll.setRxStatus t.rxStatus).withTxOf t := by
    simp only [State.beginPoll, State.setRxStatus, State.withTxOf, hcfg, hchan, hbuf, hoff]
  have htake : t.beginPoll.pollTake = s.beginPoll.pollTake := by
    rw [hbegin]
    rfl
  rw [execPoll_cons hc', execPoll_cons (hchan.trans hc'), htake, hbegin, (commutesWithReceive_withTxOf t).takeBytes,
    State.takeBytes_setRxStatus (s := s.beginPoll) hc _ s.beginPoll.pollTake_ne_zero]

/-- Settles O31: the operations keep the partial frame, and it is all of their state the next POLL reads. -/
theorem partialFrameWaits : Obligations.PartialFrameWaits := by
  intro s rs hc hrs
  obtain ⟨t, ht, hcfg, hchan, hbuf, hoff⟩ := runRequests_samePartialFrame hc hrs
  refine ⟨t, ht, hbuf, hoff, hchan.trans hc, fun bytes hne => ?_⟩
  have hsame : SamePartialFrame { s with rxChan := bytes } { t with rxChan := bytes } := ⟨hcfg, rfl, hbuf, hoff⟩
  have hpoll := execPoll_samePartialFrame hsame hne
  cases he : execPoll { s with rxChan := bytes } with
  | next s' =>
    rw [he] at hpoll
    exact .inr ⟨_, s', hpoll, he, .refl s'⟩
  | fault f =>
    rw [he] at hpoll
    exact .inl ⟨f, hpoll, he⟩
  | refused r =>
    obtain ⟨b, rest, rfl⟩ := List.exists_cons_of_ne_nil hne
    rw [execPoll_cons rfl] at he
    exact absurd he (State.takeBytes_ne_refused _ _ r)

end Sys2Proof.Machine

/-! PROOFS. The POLLs that consume an inbound frame (41_receive.md R153): what the state holds after the first bytes of a
frame, and what its last byte runs. -/

namespace Sys2Proof.Machine

open Host (Outcome)

/-! ### The frame of an inbound instruction -/

/-- A well-formed inbound instruction is the row of its own frame (R93, R94). -/
theorem inbound_frame {p : Params} {i : Instr} {f : List Byte} (hp : p.Legal) (hin : i.isInbound = true) (hwf : i.wf p)
    (hf : encode p i = .frame f) :
    ∃ cmd body, bodyFits p body ∧ f = frameBytes p cmd body ∧ classify p cmd body = i := by
  have hd := hp.1
  simp only [List.nodup_cons, List.mem_cons, List.not_mem_nil, or_false, not_or] at hd
  obtain ⟨⟨hreg, hvar, hrvar⟩, ⟨hvar', hrvar'⟩, hrvar'', -⟩ := hd
  have hok : isAckBody [ok0, ok1] = true := (isAckBody_iff _).2 rfl
  cases i with
  | rxAckWreg =>
    obtain rfl := Source.frame.inj hf
    exact ⟨_, _, Laws.EncodeShape.ackFits hp, rfl, by rw [classify, if_pos rfl, if_pos hok]⟩
  | rxAckWvar =>
    obtain rfl := Source.frame.inj hf
    exact ⟨_, _, Laws.EncodeShape.ackFits hp, rfl, by rw [classify, if_neg (Ne.symm hvar), if_pos rfl, if_pos hok]⟩
  | rxWriteNotAck k body =>
    obtain rfl := Source.frame.inj hf
    obtain ⟨hfits, hack⟩ := hwf
    refine ⟨_, body, hfits, rfl, ?_⟩
    cases k with
    | wreg => simp [classify, writeCode, hack]
    | wvar => simp [classify, writeCode, hack, Ne.symm hvar]
  | rxRvarResp body =>
    obtain rfl := Source.frame.inj hf
    exact ⟨_, body, hwf, rfl, by rw [classify, if_neg (Ne.symm hrvar), if_neg (Ne.symm hrvar''), if_pos rfl]⟩
  | rxRregResp body =>
    obtain rfl := Source.frame.inj hf
    exact ⟨_, body, hwf, rfl,
      by rw [classify, if_neg (Ne.symm hreg), if_neg hvar', if_neg hrvar', if_pos rfl]⟩
  | rxUnknown cmd body =>
    obtain rfl := Source.frame.inj hf
    obtain ⟨hfits, hcmd⟩ := hwf
    simp only [List.mem_cons, List.not_mem_nil, or_false, not_or] at hcmd
    obtain ⟨h1, h2, h3, h4⟩ := hcmd
    exact ⟨cmd, body, hfits, rfl, by rw [classify, if_neg h1, if_neg h3, if_neg h4, if_neg h2]⟩
  | _ => cases hin

theorem frameBytes_inj {p : Params} {cmd cmd' : Byte} {body body' : List Byte}
    (h : frameBytes p cmd body = frameBytes p cmd' body') : cmd = cmd' ∧ body = body' := by
  simp only [frameBytes, List.cons_append, List.nil_append, List.cons.injEq] at h
  obtain ⟨-, -, -, hcmd, hbody⟩ := h
  exact ⟨hcmd, hbody⟩

/-- The length byte of the frame of a body that fits. -/
theorem frameBytes_len {p : Params} {cmd : Byte} {body : List Byte} (h : bodyFits p body) :
    ((frameBytes p cmd body).getD 2 0).toNat = bodyLen body := by
  obtain ⟨h255, -⟩ := h
  show (BitVec.ofNat 8 (bodyLen body)).toNat = bodyLen body
  rw [BitVec.toNat_ofNat]
  omega

theorem exec_classify_polled (s : State) (rest : List Byte) (cmd : Byte) (body : List Byte) :
    exec (classify s.cfg cmd body) (s.polled rest) = .next (conclude ((s.polled rest).decodeArm cmd body)) :=
  exec_classify (s.polled rest) cmd body

/-! ### The first bytes of a frame -/

theorem State.rxBytes_zero_succ (s : State) (n : Nat) : s.rxBytes 0 (n + 1) = s.rxBytes 0 n ++ [s.rxRead n] := by
  simp [State.rxBytes, List.range_succ]

theorem State.rxBytes_getD (s : State) {n i : Nat} (h : i < n) : (s.rxBytes 0 n).getD i 0 = s.rxRead i := by
  simp [State.rxBytes, h]

/-- `u` is what POLLs leave of `s` when they have taken the bytes `held` into the empty buffer and the channel holds
`chan`. -/
structure Holding (s u : State) (held chan : List Byte) : Prop where
  inv : ReceiveInv u
  bytes : u.rxBytes 0 held.length = held
  polled : ∃ m c, u = { s.polled chan with rxBuf := m, rxOff := held.length, rxStatus := c }

theorem ReceiveInv.holding_nil {s : State} (h : ReceiveInv s) (h0 : s.rxOff = 0) :
    Holding s s.beginPoll [] s.rxChan :=
  ⟨h.polled s.rxChan, rfl, s.rxBuf, s.rxStatus, by rw [List.length_nil, ← h0]; rfl⟩

section

variable {s u : State} {cmd b : Byte} {body held more chan : List Byte}

theorem Holding.cfg (h : Holding s u held chan) : u.cfg = s.cfg := by
  obtain ⟨-, -, m, c, rfl⟩ := h
  rfl

theorem Holding.rxOff (h : Holding s u held chan) : u.rxOff = held.length := by
  obtain ⟨-, -, m, c, rfl⟩ := h
  rfl

theorem Holding.rxChan (h : Holding s u held chan) : u.rxChan = chan := by
  obtain ⟨-, -, m, c, rfl⟩ := h
  rfl

/-- A POLL that begins here finds `msg` zero already. -/
theorem Holding.polled_eq (h : Holding s u held chan) (chan' : List Byte) :
    u.polled chan' = { u with rxChan := chan' } := by
  obtain ⟨-, -, m, c, rfl⟩ := h
  rfl

theorem Holding.rxRead (h : Holding s u held chan) {i : Nat} (hi : i < held.length) (more : List Byte) :
    u.rxRead i = (held ++ more).getD i 0 := by
  rw [List.getD_append _ _ _ _ hi, ← u.rxBytes_getD hi, h.bytes]

/-- A byte of the frame other than its last is stored (R135 to R137). -/
theorem Holding.receive (h : Holding s u held (b :: chan)) (hfits : bodyFits s.cfg body)
    (hf : held ++ b :: more = frameBytes s.cfg cmd body) (hmore : more ≠ []) :
    ∃ v, (u.polled chan).receive b = .next v ∧ Holding s v (held ++ [b]) chan := by
  have hread : ∀ i, i < held.length → u.rxRead i = (frameBytes s.cfg cmd body).getD i 0 :=
    fun i hi => hf ▸ h.rxRead hi (b :: more)
  have hb : b = (frameBytes s.cfg cmd body).getD held.length 0 := by
    rw [← hf, List.getD_append_right _ _ _ _ le_rfl, Nat.sub_self, List.getD_cons_zero]
  have hlen := frameBytes_len (cmd := cmd) hfits
  have hoff : (u.polled chan).rxOff = held.length := h.rxOff
  have hcfg : (u.polled chan).cfg = s.cfg := h.cfg
  obtain ⟨v, hv, hr⟩ := (h.inv.polled chan).receive b
  refine ⟨v, hv, ?_⟩
  cases hr with
  | noise h0 hne =>
    rw [← hoff, h0] at hb
    exact absurd (hb.trans (congrArg Params.h1 hcfg.symm)) hne
  | badHeader h2 hh =>
    exact absurd ((hread 1 (by omega)).trans (congrArg Params.h2 hcfg.symm)) hh
  | badLength h2 _ hbad =>
    rw [← hoff, h2] at hb
    rw [hb, hlen, hcfg] at hbad
    have := bodyLen_pos body
    obtain ⟨-, hcap⟩ := hfits
    omega
  | decoded h3 hlast =>
    rw [State.polled_rxRead, hread 2 (by omega), hlen] at hlast
    have hlength := congrArg List.length hf
    simp only [List.length_append, List.length_cons, frameBytes_length] at hlength
    exact absurd (List.length_eq_zero_iff.1 (by omega)) hmore
  | stored _ _ _ hinv =>
    refine ⟨hinv, ?_, (u.polled chan).rxBuf.write held.length b, .accum, ?_⟩
    · have hstored := fun i => stored_read (h.inv.polled chan) b i
      rw [List.length_append, List.length_singleton, State.rxBytes_zero_succ]
      congr 1
      · refine Eq.trans (List.map_congr_left fun k hk => ?_) h.bytes
        rw [List.mem_range] at hk
        exact (hstored _).trans (if_neg (by omega))
      · exact congrArg ([·]) ((hstored _).trans (if_pos hoff.symm))
    · rw [stored_eq hoff, List.length_append, List.length_singleton]
      obtain ⟨-, -, m, c, rfl⟩ := h
      rfl

/-- The frame's last byte runs its instruction (R138, R139). -/
theorem Holding.receive_last (h : Holding s u held (b :: chan)) (hfits : bodyFits s.cfg body)
    (hf : held ++ [b] = frameBytes s.cfg cmd body) :
    (u.polled chan).receive b = exec (classify s.cfg cmd body) (s.polled chan) := by
  have hlength := congrArg List.length hf
  simp only [List.length_append, List.length_singleton, frameBytes_length] at hlength
  have hpos := bodyLen_pos body
  have hoff : (u.polled chan).rxOff = held.length := h.rxOff
  obtain ⟨v, hv, hr⟩ := (h.inv.polled chan).receive b
  rw [hv]
  cases hr with
  | noise h0 | badHeader h0 | badLength h0 => omega
  | stored _ _ hnot =>
    refine absurd ?_ (hnot (by omega))
    rw [State.polled_rxRead, h.rxRead (by omega) [b], hf, frameBytes_len hfits, hoff, hlength]
  | decoded _ _ cmd' body' _ hframe =>
    rw [hoff, State.polled_rxBytes, h.bytes, hf, show (u.polled chan).cfg = s.cfg from h.cfg] at hframe
    obtain ⟨rfl, rfl⟩ := frameBytes_inj hframe
    rw [exec_classify_polled]
    obtain ⟨-, -, m, c, rfl⟩ := h
    rfl

end

/-! ### Runs over a frame -/

section

variable {s u : State} {cmd : Byte} {body held more taken rest : List Byte}

/-- The byte loop over bytes of a frame: they are held, or, where they complete the frame, it is run. -/
theorem Holding.takeBytes (h : Holding s u held (taken ++ (more ++ rest))) (hfits : bodyFits s.cfg body)
    (hf : held ++ (taken ++ more) = frameBytes s.cfg cmd body) :
    (more ≠ [] → ∃ v, u.takeBytes taken.length = .next v ∧ Holding s v (held ++ taken) (more ++ rest)) ∧
    (more = [] → taken ≠ [] → u.takeBytes taken.length = exec (classify s.cfg cmd body) (s.polled rest)) := by
  induction taken generalizing u held with
  | nil => exact ⟨fun _ => ⟨u, rfl, by rwa [List.append_nil]⟩, fun _ hne => absurd rfl hne⟩
  | cons b taken ih =>
    rw [List.cons_append] at h hf
    have hpolled := h.polled_eq (taken ++ (more ++ rest))
    by_cases hlast : taken ++ more = []
    · obtain ⟨rfl, rfl⟩ := List.append_eq_nil_iff.1 hlast
      refine ⟨fun hne => absurd rfl hne, fun _ _ => ?_⟩
      have hv := h.receive_last hfits hf
      rw [hpolled, exec_classify_polled] at hv
      exact (State.takeBytes_succ h.rxChan hv 0).trans (exec_classify_polled s rest cmd body).symm
    · obtain ⟨v, hv, hhold⟩ := h.receive hfits hf hlast
      rw [hpolled] at hv
      rw [List.length_cons, State.takeBytes_succ h.rxChan hv]
      obtain ⟨hheld, hrun⟩ := ih hhold (by rw [← hf, List.append_assoc]; rfl)
      refine ⟨fun hne => ?_, fun hnil _ => hrun hnil fun ht => hlast (by rw [ht, hnil]; rfl)⟩
      rw [← List.append_cons] at hheld
      exact hheld hne

theorem pollTimes_succ {s t : State} (h : execPoll s = .next t) (n : Nat) : pollTimes s (n + 1) = pollTimes t n := by
  rw [pollTimes, exec_poll, h]

/-- What `n` POLLs do with a frame of which they have still to take bytes: the last of them leaves `after`, and before it
bytes of the frame are in the channel. -/
def ConsumesIn (s : State) (n : Nat) (rest : List Byte) (after : Outcome State Fault Refusal) : Prop :=
  pollTimes s n = after ∧ ∀ k, k < n → ∃ t, pollTimes s k = .next t ∧ rest.length < t.rxChan.length

theorem ConsumesIn.succ {s t : State} {n : Nat} {after : Outcome State Fault Refusal} (hpoll : execPoll s = .next t)
    (hc : rest.length < s.rxChan.length) (h : ConsumesIn t n rest after) : ConsumesIn s (n + 1) rest after := by
  obtain ⟨hlast, hbefore⟩ := h
  refine ⟨(pollTimes_succ hpoll n).trans hlast, fun k hk => ?_⟩
  cases k with
  | zero => exact ⟨s, rfl, hc⟩
  | succ k => rw [pollTimes_succ hpoll]; exact hbefore k (by omega)

/-- One POLL that takes all that is left of the frame. -/
theorem ConsumesIn.one {s t : State} (hpoll : execPoll s = .next t) (hc : rest.length < s.rxChan.length) :
    ConsumesIn s 1 rest (.next t) :=
  .succ hpoll hc ⟨rfl, fun _ hk => absurd hk (Nat.not_lt_zero _)⟩

/-- POLLs that take one byte each consume the rest of a frame in as many as it has bytes. -/
theorem Holding.consumesIn (h : Holding s u held (more ++ rest)) (hfits : bodyFits s.cfg body)
    (hf : held ++ more = frameBytes s.cfg cmd body) (hslow : s.cfg.fastpath = false ∨ held ≠ []) (hmore : more ≠ []) :
    ConsumesIn u more.length rest (exec (classify s.cfg cmd body) (s.polled rest)) := by
  induction more generalizing u held with
  | nil => exact absurd rfl hmore
  | cons b more ih =>
    rw [List.cons_append] at h
    have hc : rest.length < u.rxChan.length := by
      rw [h.rxChan, List.length_cons, List.length_append]
      omega
    have hone : u.cfg.fastpath = false ∨ u.rxOff ≠ 0 ∨ fastPrefix u.cfg u.rxChan = none := by
      rw [h.cfg, h.rxOff]
      exact hslow.imp_right fun hne => .inl fun h0 => hne (List.length_eq_zero_iff.1 h0)
    have hpoll := execPoll_receive h.rxChan hone
    by_cases hlast : more = []
    · subst hlast
      rw [h.receive_last hfits hf, exec_classify_polled] at hpoll
      rw [exec_classify_polled]
      exact .one hpoll hc
    · obtain ⟨v, hv, hhold⟩ := h.receive hfits hf hlast
      rw [hv] at hpoll
      exact .succ hpoll hc (ih hhold (by rw [← hf, List.append_assoc]; rfl) (.inr (by simp)) hlast)

end

/-- A channel that begins `H1 H2` has one of the literal prefixes at its head (R133). -/
theorem fastPrefix_isSome (p : Params) (chan : List Byte) : ∃ pre, fastPrefix p (p.h1 :: p.h2 :: chan) = some pre := by
  rw [← Option.ne_none_iff_exists', fastPrefix, Ne, List.find?_eq_none]
  intro hnone
  exact hnone [p.h1, p.h2] (by simp [literalPrefixes]) (by simp)

/-- The first POLL and the bytes after it do not see the message of the POLL before (R148). -/
theorem ConsumesIn.of_beginPoll {s : State} {n : Nat} {rest : List Byte} {after : Outcome State Fault Refusal} (hn : n ≠ 0)
    (h : ConsumesIn s.beginPoll n rest after) : ConsumesIn s n rest after := by
  obtain ⟨hlast, hbefore⟩ := h
  have hrun : ∀ k, k ≠ 0 → pollTimes s k = pollTimes s.beginPoll k := fun k hk => by
    obtain ⟨j, rfl⟩ := Nat.exists_eq_succ_of_ne_zero hk
    rfl
  refine ⟨(hrun n hn).trans hlast, fun k hk => ?_⟩
  cases k with
  | zero =>
    obtain ⟨t, ht, hc⟩ := hbefore 0 hk
    obtain rfl := Outcome.next.inj ht
    exact ⟨s, rfl, hc⟩
  | succ k => exact hbefore (k + 1) hk

/-- Settles O29: off the fast path one POLL a byte; on it, one POLL for the literal bytes at the frame's head and one for
each byte after them. -/
theorem frameIsConsumedByItsPolls : Obligations.FrameIsConsumedByItsPolls := by
  intro s i f rest hinv h0 hin hwf hf hc
  have h := ReceiveInv.of s hinv
  obtain ⟨cmd, body, hfits, hframe, rfl⟩ := inbound_frame h.legal hin hwf hf
  have hlen := congrArg List.length hframe
  have hpos := bodyLen_pos body
  rw [frameBytes_length] at hlen
  have hchan : rest.length < s.rxChan.length := by
    rw [hc, List.length_append]
    omega
  have hhold := h.holding_nil h0
  refine ⟨fun hslow => ?_, fun hfast => ?_⟩
  · rw [hc] at hhold
    exact ConsumesIn.of_beginPoll (by omega)
      (hhold.consumesIn hfits hframe (.inl hslow) (List.ne_nil_of_length_pos (by omega)))
  · obtain ⟨pre, hpre⟩ : ∃ pre, fastPrefix s.cfg s.rxChan = some pre := by
      rw [hc, hframe]
      exact fastPrefix_isSome s.cfg _
    obtain ⟨h2, h4, -⟩ := fastPrefix_length hpre
    have hpoll := execPoll_literal hfast h0 hpre
    refine ⟨pre, hpre, ?_⟩
    obtain ⟨taken, more, rfl, htaken⟩ : ∃ taken more, f = taken ++ more ∧ taken.length = pre.length :=
      ⟨f.take pre.length, f.drop pre.length, (List.take_append_drop _ _).symm, List.length_take_of_le (by omega)⟩
    rw [List.append_assoc] at hc
    rw [hc] at hhold
    obtain ⟨hheld, hrun⟩ := hhold.takeBytes hfits hframe
    rw [List.length_append, ← htaken, Nat.add_sub_cancel_left]
    rw [← htaken] at hpoll
    have hne : taken ≠ [] := List.ne_nil_of_length_pos (by omega)
    by_cases hmore : more = []
    · subst hmore
      rw [hrun rfl hne, exec_classify_polled] at hpoll
      rw [exec_classify_polled]
      exact ConsumesIn.one hpoll hchan
    · obtain ⟨v, hv, hhold'⟩ := hheld hmore
      rw [hv] at hpoll
      exact ConsumesIn.succ hpoll hchan (hhold'.consumesIn hfits hframe (.inr hne) hmore)

end Sys2Proof.Machine

/-! PROOFS. RESET (70_reset_and_hazards.md R190, R191): the block of the reset state in the environment of the state before. -/

namespace Sys2Proof.Machine

/-- RESET is the reset state with the same parameters, but for the environment: the channel's queue, `tx_seq` and the host's
inputs stay (R191). -/
@[simp] theorem exec_reset (s : State) :
    exec .reset s = .next { State.resetWith s.cfg with rxChan := s.rxChan, txSeq := s.txSeq, inbox := s.inbox } := rfl

/-- Settles O35: RESET is the reset state in the old environment, and that state's registers are zero field by field. -/
theorem resetEffect : Obligations.ResetEffect := by
  intro s
  rw [exec_reset, State.resetWith, Msg.zero, TxStage.zero]

end Sys2Proof.Machine

/-! PROOFS. The encoding (30_encoding.md): decoding and encoding are inverse to each other, row by row for requests and
through the frame's command byte and body for inbound frames; the inbound row of each command byte (R94). -/

namespace Sys2Proof.Machine

/-! ### Requests (R93, R100 to R110) -/

/-- A well-formed row that is no inbound frame is encoded by a request, and is that request's row. -/
theorem decodeRequest_of_encode {p : Params} {i : Instr} (hin : i.isInbound = false) (hwf : i.wf p) :
    ∃ r, encode p i = .request r ∧ decodeRequest r = i := by
  cases i with
  | sendWregNone a => exact ⟨_, rfl, decodeSend_wreg_none a⟩
  | sendWregByte a b => exact ⟨_, rfl, decodeSend_wreg_byte a b⟩
  | sendWregInt a v => exact ⟨_, rfl, decodeSend_wreg_int a v⟩
  | sendWvarNone a => exact ⟨_, rfl, decodeSend_wvar_none a⟩
  | sendWvarByte a b => exact ⟨_, rfl, decodeSend_wvar_byte a b⟩
  | sendWvarIntShort a v => exact ⟨_, rfl, decodeSend_wvar_int_short a hwf⟩
  | sendWvarIntLong a v => exact ⟨_, rfl, decodeSend_wvar_int_long a hwf⟩
  | sendWvarText a t =>
    obtain ⟨hpos, hmax⟩ := hwf
    exact ⟨_, rfl, decodeSend_wvar_text a hpos hmax⟩
  | sendWvarTextEmpty a => exact ⟨_, rfl, decodeSend_wvar_text_nil a⟩
  | sendRefused q => exact ⟨_, rfl, decodeSend_refused hwf⟩
  | poll | reset => exact ⟨_, rfl, rfl⟩
  | _ => cases hin

theorem encode_inbound (p : Params) {i : Instr} (hin : i.isInbound = true) : ∃ f, encode p i = .frame f := by
  cases i with
  | rxAckWreg | rxAckWvar | rxWriteNotAck _ _ | rxRvarResp _ | rxRregResp _ | rxUnknown _ _ => exact ⟨_, rfl⟩
  | _ => cases hin

/-- The row of a SEND request carries every operand of it: an accepted register address fits the row's byte (R110). -/
theorem encode_decodeSend (p : Params) (q : SendRequest) : encode p (decodeSend q) = .request (.send q) := by
  by_cases hill : illegalRequest q = true
  · rw [decodeSend_refused hill, encode]
  · have hlegal := mt (illegalRequest_iff q).2 hill
    obtain ⟨cmd, addr, pl⟩ := q
    simp only [decodeSend, if_neg hill]
    cases cmd with
    | wreg =>
      have haddr : (lo8 addr).setWidth 16 = addr :=
        setWidth_lo8 (not_lt.1 fun hlt => hlegal (.inr (.inl ⟨rfl, hlt⟩)))
      cases pl with
      | none | byte b | int v => simp only [encode, haddr]
      | text t => rfl
    | wvar =>
      cases pl with
      | none | byte b => rfl
      | int v => by_cases hlong : isLong v = true <;> simp only [hlong, if_true, if_false, Bool.false_eq_true, encode]
      | text t => cases t <;> rfl
    | rreg | rvar => rfl

theorem encode_decodeRequest (p : Params) (r : Request) : encode p (decodeRequest r) = .request r := by
  cases r with
  | reset | poll => rfl
  | send q => exact encode_decodeSend p q

theorem decodeRequest_wf (p : Params) (r : Request) : (decodeRequest r).wf p := by
  cases r with
  | reset | poll => trivial
  | send q => exact decodeSend_wf p q

/-! ### Both directions -/

/-- Settles O1: a request gives its own row back; an inbound row is the row of its frame's command byte and body. -/
theorem decodeInvertsEncode : Obligations.DecodeInvertsEncode := by
  intro p i hp hwf
  cases hin : i.isInbound with
  | false =>
    obtain ⟨r, he, hr⟩ := decodeRequest_of_encode hin hwf
    rw [he]
    exact congrArg Except.ok hr
  | true =>
    obtain ⟨f, he⟩ := encode_inbound p hin
    obtain ⟨cmd, body, hfits, rfl, rfl⟩ := inbound_frame hp hin hwf he
    rw [he]
    exact decodeFrame_frameBytes p cmd body hfits

/-- Settles O2: the decoder accepts every request, and of the byte sequences the frames of bodies that fit. -/
theorem encodeInvertsDecode : Obligations.EncodeInvertsDecode := by
  intro p src i h
  cases src with
  | request r =>
    obtain rfl := Except.ok.inj h
    exact ⟨decodeRequest_wf p r, encode_decodeRequest p r⟩
  | frame f =>
    obtain ⟨cmd, body, hfits, rfl, rfl⟩ := decodeFrame_ok h
    obtain ⟨hwf, hencode, -⟩ := classify_wf p cmd body hfits
    exact ⟨hwf, hencode⟩

/-! ### Inbound rows (R94) -/

/-- R10's four command bytes, pairwise distinct, in the order the rows are tried in. -/
theorem commandBytes_distinct {p : Params} (h : p.Legal) :
    p.cWreg ≠ p.cWvar ∧ p.cWreg ≠ p.cRvar ∧ p.cWreg ≠ p.cRreg ∧ p.cWvar ≠ p.cRvar ∧ p.cWvar ≠ p.cRreg ∧
      p.cRvar ≠ p.cRreg := by
  obtain ⟨hnodup, -⟩ := h
  simp only [List.nodup_cons, List.mem_cons, List.not_mem_nil, or_false, not_or] at hnodup
  obtain ⟨⟨h1, h2, h3⟩, ⟨h4, h5⟩, h6, -⟩ := hnodup
  exact ⟨h2, h3, h1, h6, Ne.symm h4, Ne.symm h5⟩

theorem classify_ack {p : Params} {body : List Byte} (h : p.cWreg ≠ p.cWvar) (hack : body = [ok0, ok1]) :
    classify p p.cWreg body = .rxAckWreg ∧ classify p p.cWvar body = .rxAckWvar := by
  rw [← isAckBody_iff] at hack
  simp [classify, hack, Ne.symm h]

theorem classify_notAck {p : Params} {body : List Byte} (h : p.cWreg ≠ p.cWvar) (hack : body ≠ [ok0, ok1]) :
    classify p p.cWreg body = .rxWriteNotAck .wreg body ∧ classify p p.cWvar body = .rxWriteNotAck .wvar body := by
  rw [Ne, ← isAckBody_iff] at hack
  simp [classify, hack, Ne.symm h]

/-- Settles O4: by the command byte, and for a write command by whether the body is "OK", the row is written out, and no
other command byte selects it. -/
theorem commandByteSelectsOneRow : Obligations.CommandByteSelectsOneRow := by
  intro p cmd body hp
  obtain ⟨hww, hwv, hwr, hvv, hvr, hrr⟩ := commandBytes_distinct hp
  have hok : ([0x4F, 0x4B] : List Byte) = [ok0, ok1] := rfl
  rw [hok]
  by_cases hwreg : cmd = p.cWreg
  · subst hwreg
    by_cases hack : body = [ok0, ok1]
    · rw [(classify_ack hww hack).1]
      simp [hack, hww, hwv, hwr]
    · rw [(classify_notAck hww hack).1]
      simp [hack, hww, hwv, hwr]
  by_cases hwvar : cmd = p.cWvar
  · subst hwvar
    by_cases hack : body = [ok0, ok1]
    · rw [(classify_ack hww hack).2]
      simp [hack, hwreg, hvv, hvr]
    · rw [(classify_notAck hww hack).2]
      simp [hack, hwreg, hvv, hvr]
  by_cases hrvar : cmd = p.cRvar
  · simp [classify, hrvar, hwv.symm, hvv.symm, hrr]
  by_cases hrreg : cmd = p.cRreg
  · simp [classify, hrreg, hwr.symm, hvr.symm, hrr.symm]
  · simp [classify, hwreg, hwvar, hrvar, hrreg]

/-- Settles O5: an accepted frame is that of a body that fits, and the responses' lengths follow from LEN at most 255. -/
theorem acceptedFrameLengths : Obligations.AcceptedFrameLengths := by
  intro p f i hp h
  obtain ⟨cmd, body, hfits, rfl, rfl⟩ := decodeFrame_ok h
  obtain ⟨hwf, -⟩ := classify_wf p cmd body hfits
  have hpos := bodyLen_pos body
  have hLEN := frameBytes_len (cmd := cmd) hfits
  rw [frameBytes_length]
  obtain ⟨-, hcap⟩ := hfits
  refine ⟨by omega, hcap, ⟨_, rfl, congrArg (3 + ·) hLEN.symm⟩, fun body' hi hresp => ?_, fun body' hi hresp => ?_⟩
  · rw [hi] at hwf
    obtain ⟨hmax, -⟩ := hwf
    obtain ⟨-, hwords⟩ := (rvarFits_iff body').1 hresp
    rw [rvarWords_length]
    omega
  · rw [hi] at hwf
    obtain ⟨hmax, -⟩ := hwf
    obtain ⟨-, hbytes⟩ := (rregFits_iff body').1 hresp
    rw [rregWords_length]
    omega

/-- Settles O3: the vectors, by evaluation. -/
theorem vectorFramesDecode : Obligations.VectorFramesDecode :=
  ⟨rfl, rfl, rfl, rfl, rfl, rfl, rfl, rfl, rfl, rfl⟩

/-- Settles O47: the tables of codes, by evaluation. -/
theorem statusCodes : Obligations.StatusCodes := ⟨rfl, rfl, rfl, rfl⟩

end Sys2Proof.Machine

/-! PROOFS. Single steps and instructions: the host's next input (60_exceptions.md R183), a SEND with a frame (40_transmit.md),
the inbound rows as instructions (41_receive.md R140 to R144), and the POLL of one byte (R130 to R139). -/

namespace Sys2Proof.Machine

open Host (Outcome)

/-! ### One step by the host's next input (R180, R182, R183) -/

theorem step_request {s : State} {r : Request} {rest : List HostInput} (h : s.inbox = .request r :: rest) :
    step s = exec (decodeRequest r) { s with inbox := rest } := by
  simp only [step, State.fetch, h]

theorem step_deliver {s : State} {bytes : List Byte} {rest : List HostInput} (h : s.inbox = .deliver bytes :: rest) :
    step s = .next { s with rxChan := s.rxChan ++ bytes, inbox := rest } := by
  simp only [step, State.fetch, h]

theorem step_idle {s : State} (h : s.inbox = []) : step s = .next s := by
  simp only [step, State.fetch, h]

/-- The ways a step answers a next state. -/
theorem step_cases {s t : State} (h : step s = .next t) :
    t = s ∨
    (∃ bytes rest, s.inbox = .deliver bytes :: rest ∧ t = { s with rxChan := s.rxChan ++ bytes, inbox := rest }) ∨
    (∃ r rest, s.inbox = .request r :: rest ∧ exec (decodeRequest r) { s with inbox := rest } = .next t) := by
  cases hin : s.inbox with
  | nil =>
    rw [step_idle hin, Outcome.next.injEq] at h
    exact .inl h.symm
  | cons input rest =>
    cases input with
    | deliver bytes =>
      rw [step_deliver hin, Outcome.next.injEq] at h
      exact .inr (.inl ⟨bytes, rest, rfl, h.symm⟩)
    | request r =>
      rw [step_request hin] at h
      exact .inr (.inr ⟨r, rest, rfl, h⟩)

/-- Settles O44: every request decodes to a row that admits it. -/
theorem stepRunsTheDecodedRequest : Obligations.StepRunsTheDecodedRequest :=
  fun s r _ h => ⟨decodeRequest_wf s.cfg r, step_request h⟩

/-- Settles O45. -/
theorem stepDeliversOrIdles : Obligations.StepDeliversOrIdles := fun _ => ⟨fun _ _ => step_deliver, step_idle⟩

/-! ### SEND -/

/-- Settles O6. -/
theorem sendPutsItsFrameOnTheWire : Obligations.SendPutsItsFrameOnTheWire :=
  fun _ _ _ hwf hf => exec_of_outboundFrame hwf hf

/-! ### Inbound rows as instructions (log entry 5) -/

/-- Settles O13: both acknowledgement rows run DECODE's acknowledgement arm, the other two a drop. -/
theorem framesEndedWithoutMessage : Obligations.FramesEndedWithoutMessage :=
  fun s _ _ _ => ⟨rfl, rfl, congrArg Outcome.next (conclude_drop s .dropFields),
    congrArg Outcome.next (conclude_drop s .dropCommand)⟩

theorem exec_rxRvarResp (s : State) (body : List Byte) :
    exec (.rxRvarResp body) s = .next (conclude (s.decodeRvar body)) := rfl

theorem exec_rxRregResp (s : State) (body : List Byte) :
    exec (.rxRregResp body) s = .next (conclude (s.decodeRreg body)) := rfl

/-- Settles O14: the two outcomes of R142's arm, its fields read from the frame. -/
theorem readVariableResponse : Obligations.ReadVariableResponse := by
  intro s body f L W hf hL hW
  have hfield : ∀ k, 4 ≤ k → f.getD k 0 = fieldAt body k := fun k hk => hf ▸ frameBytes_getD _ _ _ k hk
  have hfits := rvarFits_iff body
  rw [bodyLen, ← hL, ← hfield 6 (by omega), ceil2, ← hW] at hfits
  rw [exec_rxRvarResp]
  refine ⟨fun hshort => ?_, fun h4 hlong => ?_⟩
  · rw [State.decodeRvar, if_neg (by rw [hfits]; omega), conclude_drop]
  · obtain ⟨m, hm, hkind, haddr, hbl, hdata⟩ := conclude_decodeRvar_message s (hfits.2 ⟨h4, hlong⟩)
    refine ⟨m, congrArg _ hm, hkind, ?_, ?_, fun k hk => ?_⟩
    · rw [haddr, hfield 4 (by omega), hfield 5 (by omega)]
    · rw [hbl, hfield 6 (by omega)]
    · rw [hdata k hk, hfield _ (by omega), hfield _ (by omega), hW, hfield 6 (by omega), ceil2]

/-- Settles O15: the two outcomes of R143's arm. -/
theorem readRegisterResponse : Obligations.ReadRegisterResponse := by
  intro s body f L BL hf hL hBL
  have hfield : ∀ k, 4 ≤ k → f.getD k 0 = fieldAt body k := fun k hk => hf ▸ frameBytes_getD _ _ _ k hk
  have hfits := rregFits_iff body
  rw [bodyLen, ← hL, ← hfield 5 (by omega), ← hBL] at hfits
  rw [exec_rxRregResp]
  refine ⟨fun hshort => ?_, fun h3 hlong => ?_⟩
  · rw [State.decodeRreg, if_neg (by rw [hfits]; omega), conclude_drop]
  · obtain ⟨m, hm, hkind, haddr, hbl, hdata⟩ := conclude_decodeRreg_message s (hfits.2 ⟨h3, hlong⟩)
    refine ⟨m, congrArg _ hm, hkind, ?_, ?_, fun k hk => ?_⟩
    · rw [haddr, hfield 4 (by omega)]
    · rw [hbl, hfield 5 (by omega)]
    · rw [hdata k hk, hfield _ (by omega), hBL, hfield 5 (by omega)]

/-! ### The POLL of no byte, of noise, of a byte that is stored, and of a frame's last byte -/

/-- Settles O16. -/
theorem pollOfEmptyChannelIsIdle : Obligations.PollOfEmptyChannelIsIdle := fun _ hc => execPoll_empty hc

/-- Settles O17. -/
theorem noiseIsDiscarded : Obligations.NoiseIsDiscarded := fun _ _ _ h0 hc hb => execPoll_noise hc h0 hb

/-- Settles O18: the other ways a byte is received are excluded one by one. -/
theorem pollStoresOneByte : Obligations.PollStoresOneByte := by
  intro s b rest hinv hc hslow hhead h2 hmore
  have h := (ReceiveInv.of s hinv).polled rest
  obtain ⟨t, ht, hr⟩ := h.receive b
  rw [exec_poll, execPoll_receive hc hslow, ht]
  cases hr with
  | noise h0 hb => exact absurd (hhead h0) hb
  | badHeader h2' | badLength h2' => exact absurd h2' h2
  | decoded h3 hlast => exact absurd hlast (hmore h3)
  | stored => exact ⟨_, rfl, stored_read h b⟩

/-- A partial frame in the buffer is what POLLs have taken so far. -/
theorem ReceiveInv.holding {s : State} (h : ReceiveInv s) : Holding s s.beginPoll (s.rxBytes 0 s.rxOff) s.rxChan := by
  refine ⟨h.polled s.rxChan, ?_, s.rxBuf, s.rxStatus, ?_⟩ <;> rw [State.rxBytes_length] <;> rfl

/-- Settles O20: the buffer and the byte are the frame of a body that fits, and its row is run. -/
theorem pollRunsTheDecodedFrame : Obligations.PollRunsTheDecodedFrame := by
  intro s b rest hinv h3 hlast hc
  have h := ReceiveInv.of s hinv
  obtain ⟨cmd, body, hfits, hframe, -⟩ := decodeBuffer_stored h b h3 hlast
  obtain ⟨-, -, hin⟩ := classify_wf s.cfg cmd body hfits
  have hhold := h.holding
  rw [hc] at hhold
  refine ⟨classify s.cfg cmd body, hin, ?_, ?_⟩
  · rw [hframe]
    exact decodeFrame_frameBytes s.cfg cmd body hfits
  · rw [exec_poll, execPoll_receive hc (.inr (.inl (by omega)))]
    exact hhold.receive_last hfits hframe

end Sys2Proof.Machine

/-! PROOFS. Runs over the bytes after the header (41_receive.md R138, R197), and a frame placed for the next step (log
entry 6). -/

namespace Sys2Proof.Machine

open Host (Outcome)

/-! ### LEN bytes after the header -/

/-- A header that passed the checkpoint and LEN bytes after it, whatever they are, make a frame that fits. -/
theorem ReceiveInv.header_append {s : State} (h : ReceiveInv s) (h3 : s.rxOff = 3) {data : List Byte}
    (hlen : data.length = (s.rxRead 2).toNat) :
    ∃ cmd body, bodyFits s.cfg body ∧ s.rxBytes 0 3 ++ data = frameBytes s.cfg cmd body := by
  obtain ⟨hhead, hrest⟩ := h.frame
  obtain ⟨hh2, hpos, hcap, -⟩ := hrest (by omega)
  have hmax := (s.rxRead 2).isLt
  obtain ⟨cmd, body, rfl⟩ := List.exists_cons_of_length_pos (l := data) (by omega)
  have hLEN : bodyLen body = (s.rxRead 2).toNat := by
    rw [← hlen, bodyLen, List.length_cons]
    omega
  refine ⟨cmd, body, ⟨by omega, by omega⟩, ?_⟩
  have hheader : s.rxBytes 0 3 = [s.rxRead 0, s.rxRead 1, s.rxRead 2] := rfl
  rw [hheader, hhead (by omega), hh2, frameBytes, hLEN, BitVec.ofNat_toNat, BitVec.setWidth_eq]
  rfl

section

variable {s u : State} {cmd : Byte} {body held taken more rest : List Byte}

/-- POLLs over bytes of a frame short of its last: each byte is held. -/
theorem Holding.pollTimes (h : Holding s u held (taken ++ (more ++ rest))) (hfits : bodyFits s.cfg body)
    (hf : held ++ (taken ++ more) = frameBytes s.cfg cmd body) (hheld : held ≠ []) (hmore : more ≠ []) :
    ∃ v, pollTimes u taken.length = .next v ∧ Holding s v (held ++ taken) (more ++ rest) := by
  induction taken generalizing u held with
  | nil => exact ⟨u, rfl, by rwa [List.append_nil]⟩
  | cons b taken ih =>
    have hoff : u.rxOff ≠ 0 := by rwa [h.rxOff, Ne, List.length_eq_zero_iff]
    obtain ⟨v, hv, hhold⟩ := h.receive hfits hf (List.append_ne_nil_of_right_ne_nil taken hmore)
    rw [← execPoll_receive h.rxChan (.inr (.inl hoff))] at hv
    obtain ⟨w, hw, hhold'⟩ := ih hhold (by rw [← hf, List.append_assoc]; rfl) (by simp)
    exact ⟨w, (pollTimes_succ hv _).trans hw, by rwa [List.append_assoc] at hhold'⟩

end

/-- A run of POLLs does not see the message of the POLL before it (R148). -/
theorem pollTimes_beginPoll (s : State) (n : Nat) : pollTimes s.beginPoll (n + 1) = pollTimes s (n + 1) := rfl

/-- Settles O24: every byte short of the frame's last is held, and the last one runs the frame's row. -/
theorem lenBytesAreConsumedThenDecoded : Obligations.LenBytesAreConsumedThenDecoded := by
  intro s data rest hinv h3 hc hlen
  have h := ReceiveInv.of s hinv
  obtain ⟨cmd, body, hfits, hframe⟩ := h.header_append h3 hlen
  have hhold := h.holding
  rw [h3, hc] at hhold
  have hheld : s.rxBytes 0 3 ≠ [] := List.cons_ne_nil _ _
  obtain ⟨-, -, hin⟩ := classify_wf s.cfg cmd body hfits
  obtain ⟨-, hframeInv⟩ := h.frame
  obtain ⟨-, hpos, -⟩ := hframeInv (by omega)
  refine ⟨fun n hn => ?_, classify s.cfg cmd body, hin, ?_, ?_⟩
  · cases n with
    | zero => exact ⟨s, rfl, h3, hc⟩
    | succ n =>
      obtain ⟨taken, more, rfl, htaken⟩ : ∃ taken more, data = taken ++ more ∧ taken.length = n + 1 :=
        ⟨data.take (n + 1), data.drop (n + 1), (List.take_append_drop _ _).symm, List.length_take_of_le (by omega)⟩
      rw [List.length_append] at hn
      rw [List.append_assoc] at hhold
      obtain ⟨v, hv, hv'⟩ := hhold.pollTimes hfits hframe hheld (List.ne_nil_of_length_pos (by omega))
      rw [htaken, pollTimes_beginPoll] at hv
      refine ⟨v, hv, ?_, ?_⟩
      · rw [hv'.rxOff, List.length_append, State.rxBytes_length, htaken]
      · rw [hv'.rxChan, ← htaken, List.drop_left]
  · rw [hframe]
    exact decodeFrame_frameBytes s.cfg cmd body hfits
  · obtain ⟨hrun, -⟩ := ConsumesIn.of_beginPoll (by omega)
      (hhold.consumesIn hfits hframe (.inr hheld) (List.ne_nil_of_length_pos (by omega)))
    exact hrun

/-! ### A placed frame -/

theorem storeFrom_nil_read (bytes : List Byte) (i : Nat) : Memory.read (storeFrom [] 0 bytes) i = bytes.getD i 0 := by
  rw [storeFrom_read Memory.wf_nil]
  by_cases hi : i < bytes.length
  · rw [if_pos ⟨by omega, by omega⟩, Nat.sub_zero]
  · rw [if_neg (by omega), List.getD_eq_default _ _ (by omega)]
    rfl

/-- A frame's bytes stored from index 0 on, all but its last, are a partial frame that R23 admits. -/
theorem holding_storeFrom {s : State} {held body : List Byte} {cmd b : Byte} (hp : s.cfg.Legal) (hfits : bodyFits s.cfg body)
    (hf : held ++ [b] = frameBytes s.cfg cmd body) (chan : List Byte) :
    Holding s { s.polled chan with rxBuf := storeFrom [] 0 held, rxOff := held.length } held chan := by
  have hLEN := frameBytes_len (cmd := cmd) hfits
  have hlen := congrArg List.length hf
  rw [List.length_append, List.length_singleton, frameBytes_length] at hlen
  have hbyte : ∀ i, i < held.length → Memory.read (storeFrom [] 0 held) i = (frameBytes s.cfg cmd body).getD i 0 :=
    fun i hi => by rw [storeFrom_nil_read, ← hf, List.getD_append _ _ _ _ hi]
  refine ⟨⟨hp, ⟨storeFrom_wf Memory.wf_nil _ _, fun i hi => ?_⟩, fun hoff => hbyte 0 hoff, fun hoff => ?_⟩, ?_,
    _, _, rfl⟩
  · exact (storeFrom_nil_read held i).trans (List.getD_eq_default _ _ hi)
  · replace hoff : 3 ≤ held.length := hoff
    have hpos := bodyLen_pos body
    obtain ⟨-, hcap⟩ := hfits
    simp only [State.rxRead, hbyte 1 (by omega), hbyte 2 (by omega), hLEN]
    exact ⟨rfl, hpos, hcap, by simp only [← hlen]; omega⟩
  · refine List.ext_getElem (State.rxBytes_length _ _ _) fun i hi hi' => ?_
    simp [State.rxBytes, State.rxRead, storeFrom_nil_read, hi']

theorem State.placeFrame_concat (s : State) (held : List Byte) (b : Byte) :
    s.placeFrame (held ++ [b]) = { s with
      rxBuf := storeFrom [] 0 held, rxOff := held.length, rxChan := b :: s.rxChan,
      inbox := .request .poll :: s.inbox } := by
  simp [State.placeFrame]

/-- Settles O46: the step is a POLL that takes the last byte of the placed frame. -/
theorem placedFrameRuns : Obligations.PlacedFrameRuns := by
  intro s i f hp hin hwf hf
  obtain ⟨cmd, body, hfits, hframe, rfl⟩ := inbound_frame hp hin hwf hf
  have hlen := congrArg List.length hframe
  rw [frameBytes_length] at hlen
  obtain ⟨held, b, rfl⟩ := (List.eq_nil_or_concat' f).resolve_left (List.ne_nil_of_length_pos (by omega))
  have hpos := bodyLen_pos body
  rw [List.length_append, List.length_singleton] at hlen
  rw [s.placeFrame_concat, step_request rfl]
  have hoff : held.length ≠ 0 := by omega
  refine Eq.trans ?_ ((holding_storeFrom hp hfits hframe (b :: s.rxChan)).receive_last hfits hframe)
  exact execPoll_receive rfl (.inr (.inl hoff))

end Sys2Proof.Machine

/-! PROOFS. One POLL in full (41_receive.md R130 to R133, R147): which of the literal prefixes the fast path takes, and what a
POLL takes and leaves from a state that meets the receive invariant. -/

namespace Sys2Proof.Machine

open Host (Outcome)

/-! ### The longest of the literal prefixes (R133) -/

theorem fastPrefix_eq_find (p : Params) (chan : List Byte) :
    fastPrefix p chan = (literalPrefixes p).find? fun pre => decide (pre <+: chan) := by
  have htest : ∀ pre : List Byte, pre.length ≤ chan.length ∧ chan.take pre.length = pre ↔ pre <+: chan := fun pre =>
    ⟨fun ⟨_, htake⟩ => List.prefix_iff_eq_take.2 htake.symm,
      fun h => ⟨h.length_le, (List.prefix_iff_eq_take.1 h).symm⟩⟩
  simp only [fastPrefix, htest]

/-- `fast_prefix()` tries P4, P3 and P2 in this order. -/
theorem fastPrefix_eq (p : Params) (chan : List Byte) :
    fastPrefix p chan =
      if [p.h1, p.h2, p.fpLen, p.cRvar] <+: chan then some [p.h1, p.h2, p.fpLen, p.cRvar]
      else if [p.h1, p.h2, p.fpLen] <+: chan then some [p.h1, p.h2, p.fpLen]
      else if [p.h1, p.h2] <+: chan then some [p.h1, p.h2]
      else none := by
  rw [fastPrefix_eq_find, literalPrefixes, fpCmd]
  split_ifs with h4 h3 h2 <;> simp [*]

theorem fastPrefix_append {p : Params} {chan pre : List Byte} (h : fastPrefix p chan = some pre) :
    chan = pre ++ chan.drop pre.length := by
  obtain ⟨-, -, htake⟩ := fastPrefix_some h
  conv_lhs => rw [← List.take_append_drop pre.length chan, htake]

/-! ### POLLs instead of the byte loop -/

theorem ReceiveInv.withFastpath {s : State} (h : ReceiveInv s) (v : Bool) : ReceiveInv (s.withFastpath v) :=
  ⟨h.legal, h.buf, h.frame⟩

/-- Off the fast path as many POLLs do what the byte loop does, where no message comes of it: each begins with `msg` zero and
NOTHING, which the loop has kept so far. -/
theorem ReceiveInv.pollTimes_eq_takeBytes {n : Nat} {s t : State} (h : ReceiveInv s) (hslow : s.cfg.fastpath = false)
    (hn : n ≤ s.rxChan.length) (hmsg : s.msg = Msg.zero) (htake : s.takeBytes n = .next t) (ht : t.rxResult = .nothing) :
    pollTimes s n = .next t := by
  induction n generalizing s with
  | zero => exact htake
  | succ n ih =>
    obtain ⟨b, rest, hc⟩ := List.exists_cons_of_length_pos (Nat.lt_of_lt_of_le (Nat.succ_pos n) hn)
    obtain ⟨-, -, -, -, -, -, -, hback⟩ := takeBytes_frame _ _ _ htake
    have hpolled : ({ s with rxChan := rest } : State) = s.polled rest := by
      rw [State.polled, ← hmsg, ← (hback ht).2]
    obtain ⟨u, hu, hr⟩ := (h.polled rest).receive b
    rw [State.takeBytes_succ hc (hpolled ▸ hu)] at htake
    obtain ⟨-, -, -, -, -, -, -, hback⟩ := takeBytes_frame _ _ _ htake
    obtain ⟨⟨hcfg, hchan, -⟩, hkeep⟩ := State.receive_frame hu
    rw [hc, List.length_cons] at hn
    rw [pollTimes_succ ((execPoll_receive hc (.inl hslow)).trans hu)]
    exact ih (hr.inv (h.polled rest)) (by rw [hcfg]; exact hslow) (by rw [hchan, State.polled_rxChan]; omega)
      (hkeep (hback ht).2).1 htake

/-- Settles O25: the three tests in order; what the fast path takes is at most 4 bytes from an empty buffer, too few for a
message, so that slow POLLs leave the same. -/
theorem fastPathTakesTheLongestPrefix : Obligations.FastPathTakesTheLongestPrefix := by
  rintro s P4 P3 P2 hinv rfl rfl rfl
  have h34 : [s.cfg.h1, s.cfg.h2, s.cfg.fpLen] <+: [s.cfg.h1, s.cfg.h2, s.cfg.fpLen, s.cfg.cRvar] := ⟨_, rfl⟩
  have h23 : [s.cfg.h1, s.cfg.h2] <+: [s.cfg.h1, s.cfg.h2, s.cfg.fpLen] := ⟨_, rfl⟩
  refine ⟨fun h4 => ?_, fun h4 h3 => ?_, fun h3 h2 => ?_, fun h2 => ?_, fun hfast h0 P hP => ?_⟩
  · rw [fastPrefix_eq, if_pos h4]
  · rw [fastPrefix_eq, if_neg h4, if_pos h3]
  · rw [fastPrefix_eq, if_neg (mt h34.trans h3), if_neg h3, if_pos h2]
  · have h3 := mt h23.trans h2
    rw [fastPrefix_eq, if_neg (mt h34.trans h3), if_neg h3, if_neg h2]
  · have h := ReceiveInv.of s hinv
    obtain ⟨hlen2, hlen4, hlen⟩ := fastPrefix_length hP
    have hbegin : ReceiveInv s.beginPoll := h.polled s.rxChan
    obtain ⟨t, ht, -, hchan, hnothing, -⟩ := hbegin.takeBytes hlen
    replace hnothing : t.rxResult = .nothing := hnothing (by rw [State.beginPoll_rxOff]; omega) rfl
    refine ⟨t, (execPoll_literal hfast h0 hP).trans ht, by rw [hchan]; exact fastPrefix_append hP, ?_⟩
    obtain ⟨n, hn⟩ : ∃ n, P.length = n + 1 := ⟨P.length - 1, by omega⟩
    rw [hn] at ht hlen ⊢
    rw [← pollTimes_beginPoll]
    exact (hbegin.withFastpath false).pollTimes_eq_takeBytes rfl hlen rfl (State.takeBytes_withFastpath ht false) hnothing

/-! ### What a POLL takes and leaves -/

/-- From a state that meets the receive invariant a POLL completes and keeps it; what it takes is nothing, one byte, or
one of the literal prefixes at an empty buffer, which hold no message (R130, R132, R147). -/
theorem ReceiveInv.execPoll_next {s : State} (h : ReceiveInv s) :
    ∃ (t : State) (taken : List Byte), execPoll s = .next t ∧ ReceiveInv t ∧ s.rxChan = taken ++ t.rxChan ∧
      taken.length ≤ 4 ∧ (s.cfg.fastpath = false ∨ s.rxOff ≠ 0 → taken.length ≤ 1) ∧ (s.rxChan ≠ [] → taken ≠ []) ∧
      (2 ≤ taken.length → t.rxResult = .nothing) := by
  cases hc : s.rxChan with
  | nil =>
    exact ⟨_, [], execPoll_empty hc, (h.polled s.rxChan).setRxStatus .idle, hc.symm, by simp, by simp, by simp, by simp⟩
  | cons b rest =>
    by_cases hslow : s.cfg.fastpath = false ∨ s.rxOff ≠ 0 ∨ fastPrefix s.cfg s.rxChan = none
    · obtain ⟨t, ht, hr⟩ := (h.polled rest).receive b
      obtain ⟨⟨-, hchan, -⟩, -⟩ := State.receive_frame ht
      exact ⟨t, [b], (execPoll_receive hc hslow).trans ht, hr.inv (h.polled rest), by rw [hchan]; rfl, by simp, by simp,
        by simp, by simp⟩
    · push Not at hslow
      obtain ⟨hfast, h0, hpre⟩ := hslow
      obtain ⟨pre, hpre⟩ := Option.ne_none_iff_exists'.1 hpre
      obtain ⟨h2, h4, hlen⟩ := fastPrefix_length hpre
      have hbegin : ReceiveInv s.beginPoll := h.polled s.rxChan
      obtain ⟨t, ht, hinv, hchan, hnothing, -⟩ := hbegin.takeBytes hlen
      refine ⟨t, pre, (execPoll_literal (by simpa using hfast) h0 hpre).trans ht, hinv, ?_, h4, ?_, ?_, fun _ => ?_⟩
      · rw [hchan, ← hc]
        exact fastPrefix_append hpre
      · exact fun h => absurd h (not_or.2 ⟨hfast, not_not.2 h0⟩)
      · exact fun _ => List.ne_nil_of_length_pos (by omega)
      · exact hnothing (by rw [State.beginPoll_rxOff]; omega) rfl

/-- Settles O26. -/
theorem pollCompletesTakingAtMostFourBytes : Obligations.PollCompletesTakingAtMostFourBytes := by
  intro s hinv
  obtain ⟨t, taken, hpoll, -, htaken⟩ := (ReceiveInv.of s hinv).execPoll_next
  exact ⟨t, taken, hpoll, htaken⟩

end Sys2Proof.Machine

/-! PROOFS. The whole machine: the four kinds of instruction and what each leaves unchanged (00_scope.md R11, 20_memory.md R57 to
R59), the status registers (10_state.md R25, R29) and the message's lifetime (41_receive.md R148). -/

namespace Sys2Proof.Machine

open Host (Outcome)

/-! ### The kinds of instruction -/

/-- What an inbound row does, the same from every state (R139 to R144): the buffer is cleared with a status code, or a
message is written and reported. -/
theorem exec_inbound {i : Instr} (h : i.isInbound = true) :
    (∃ c, ∀ s, exec i s = .next (s.endFrame c)) ∨
    (∃ kind addr bytelen entries, ∀ s,
      exec i s = .next { (s.writeMsg kind addr bytelen entries).endFrame .msg with rxResult := .received }) := by
  cases i with
  | rxAckWreg | rxAckWvar => exact .inl ⟨.ack, fun _ => rfl⟩
  | rxWriteNotAck k body => exact .inl ⟨.dropFields, fun _ => rfl⟩
  | rxUnknown cmd body => exact .inl ⟨.dropCommand, fun _ => rfl⟩
  | rxRvarResp body =>
    by_cases hfits : rvarFits body = true
    · exact .inr ⟨_, _, _, _, fun s => by rw [exec_rxRvarResp, State.decodeRvar, if_pos hfits]; rfl⟩
    · exact .inl ⟨.dropFields, fun s => by rw [exec_rxRvarResp, State.decodeRvar, if_neg hfits]; rfl⟩
  | rxRregResp body =>
    by_cases hfits : rregFits body = true
    · exact .inr ⟨_, _, _, _, fun s => by rw [exec_rxRregResp, State.decodeRreg, if_pos hfits]; rfl⟩
    · exact .inl ⟨.dropFields, fun s => by rw [exec_rxRregResp, State.decodeRreg, if_neg hfits]; rfl⟩
  | _ => cases h

theorem exec_inbound_frame {i : Instr} (h : i.isInbound = true) {s t : State} (ht : exec i s = .next t) :
    t.cfg = s.cfg ∧ t.rxBuf = [] ∧ t.rxChan = s.rxChan ∧ t.txSeq = s.txSeq := by
  rcases exec_inbound h with ⟨c, hexec⟩ | ⟨kind, addr, bytelen, entries, hexec⟩
  · rw [hexec, Outcome.next.injEq] at ht
    exact ht ▸ ⟨rfl, rfl, rfl, rfl⟩
  · rw [hexec, Outcome.next.injEq] at ht
    exact ht ▸ ⟨rfl, rfl, rfl, rfl⟩

/-- Every instruction is a SEND, an inbound row, POLL or RESET. -/
theorem instr_kinds (i : Instr) :
    (SendsAlike i ∧ ¬(i.isInbound = true ∨ i = .poll ∨ i = .reset)) ∨ i.isInbound = true ∨ i = .poll ∨ i = .reset := by
  cases i with
  | poll | reset => simp
  | rxAckWreg | rxAckWvar | rxWriteNotAck _ _ | rxRvarResp _ | rxRregResp _ | rxUnknown _ _ => exact .inr (.inl rfl)
  | sendRefused q => exact .inl ⟨.inl fun _ => rfl, by simp [Instr.isInbound]⟩
  | sendWvarTextEmpty a => exact .inl ⟨.inr (.inl fun _ => rfl), by simp [Instr.isInbound]⟩
  | _ => exact .inl ⟨sendsAlike_of_outboundFrame (p := Params.ref) rfl, by simp [Instr.isInbound]⟩

/-- A SEND only extends `tx_seq` (R57). -/
theorem SendsAlike.txSeq {i : Instr} (h : SendsAlike i) {s t : State} (ht : exec i s = .next t) :
    ∃ emitted, t.txSeq = s.txSeq ++ emitted := by
  rcases h with hreject | hnoop | ⟨k, addr, payload, hsend⟩
  · rw [hreject, Outcome.next.injEq] at ht
    exact ⟨[], by rw [← ht, List.append_nil, State.reject_txSeq]⟩
  · rw [hnoop, Outcome.next.injEq] at ht
    exact ⟨[], by rw [← ht, List.append_nil, State.noop_txSeq]⟩
  · rw [hsend, State.transmit_emits, Outcome.next.injEq] at ht
    exact ⟨_, by rw [← ht]⟩

/-- Between operations the staging record is zero: every SEND leaves it zero (R28, R112). -/
theorem SendsAlike.txStage_zero {i : Instr} (h : SendsAlike i) {s t : State} (ht : exec i s = .next t)
    (hs : s.txStage = TxStage.zero) : t.txStage = TxStage.zero := by
  rcases h with hreject | hnoop | ⟨k, addr, payload, hsend⟩
  · rw [hreject, Outcome.next.injEq] at ht
    rw [← ht, State.reject_txStage, hs]
  · rw [hnoop, Outcome.next.injEq] at ht
    rw [← ht, State.noop_txStage, hs]
  · rw [hsend, State.transmit_emits, Outcome.next.injEq] at ht
    rw [← ht]

/-- The receive half after an instruction that answers a next state. -/
theorem SendsAlike.sameRx_next {i : Instr} (h : SendsAlike i) {s t : State} (ht : exec i s = .next t) : SameRx s t := by
  obtain ⟨u, hu, hsu⟩ := h.sameRx s
  rw [hu, Outcome.next.injEq] at ht
  exact ht ▸ hsu

/-! ### What every instruction leaves unchanged -/

/-- The frame of every instruction, whatever the state: the parameters, the canonical form of the buffer's list, the order of
the channel and of `tx_seq`. -/
theorem exec_frame {i : Instr} {s t : State} (h : exec i s = .next t) :
    t.cfg = s.cfg ∧ (s.rxBuf.wf → t.rxBuf.wf) ∧
    (∃ taken, s.rxChan = taken ++ t.rxChan ∧ (i ≠ .poll → taken = [])) ∧
    (∃ emitted, t.txSeq = s.txSeq ++ emitted ∧ (i.isInbound = true ∨ i = .poll ∨ i = .reset → emitted = [])) := by
  rcases instr_kinds i with ⟨hsend, hnot⟩ | hin | rfl | rfl
  · obtain ⟨hcfg, hbuf, -, -, -, -, hchan⟩ := hsend.sameRx_next h
    obtain ⟨emitted, hemitted⟩ := hsend.txSeq h
    exact ⟨hcfg.symm, hbuf ▸ id, ⟨[], hchan, fun _ => rfl⟩, emitted, hemitted, fun hother => absurd hother hnot⟩
  · obtain ⟨hcfg, hbuf, hchan, hseq⟩ := exec_inbound_frame hin h
    exact ⟨hcfg, fun _ => hbuf ▸ Memory.wf_nil, ⟨[], hchan.symm, fun _ => rfl⟩, [], by rw [hseq, List.append_nil],
      fun _ => rfl⟩
  · obtain ⟨hcfg, -, -, hseq, -, ⟨taken, htaken⟩, hbuf, -⟩ := execPoll_frame h
    exact ⟨hcfg, hbuf, ⟨taken, htaken, fun hne => absurd rfl hne⟩, [], by rw [hseq, List.append_nil], fun _ => rfl⟩
  · rw [exec_reset, Outcome.next.injEq] at h
    subst h
    exact ⟨rfl, fun _ => Memory.wf_nil, ⟨[], rfl, fun _ => rfl⟩, [], (List.append_nil _).symm, fun _ => rfl⟩

/-- Settles O41. -/
theorem channelOrderIsKept : Obligations.ChannelOrderIsKept := by
  intro i s t h
  obtain ⟨-, -, htaken, hemitted⟩ := exec_frame h
  exact ⟨htaken, hemitted⟩

/-- Settles O43. -/
theorem bufferStaysCanonical : Obligations.BufferStaysCanonical := by
  intro i s t hwf h
  obtain ⟨-, hkeep, -⟩ := exec_frame h
  exact hkeep hwf

/-- Settles O42. -/
theorem parametersAreFixed : Obligations.ParametersAreFixed := by
  intro s t h
  rcases step_cases h with rfl | ⟨bytes, rest, -, rfl⟩ | ⟨r, rest, -, hexec⟩
  · rfl
  · rfl
  · obtain ⟨hcfg, -⟩ := exec_frame hexec
    exact hcfg

/-! ### The status registers are informational (R25, R29) -/

/-- A POLL writes `rx_status` without reading it, and leaves `tx_status`. -/
theorem execPoll_withStatus (s : State) (r : RxStatus) (x : TxStatus) :
    execPoll (s.withStatus r x) = mapNext (fun t => t.withStatus t.rxStatus x) (execPoll s) := by
  by_cases hc : s.rxChan = []
  · rw [execPoll_empty hc, execPoll_empty (s := s.withStatus r x) hc, mapNext]
    rfl
  · rw [execPoll_samePartialFrame (s := s) (t := s.withStatus r x) ⟨rfl, rfl, rfl, rfl⟩ hc]
    cases hpoll : execPoll s with
    | next t =>
      obtain ⟨-, hstage, -, hseq, hinbox, -⟩ := execPoll_frame hpoll
      simp only [mapNext, State.withTxOf, State.withStatus, hstage, hseq, hinbox]
    | fault f => rfl
    | refused e => rfl

/-- Other values in the two status registers give the same outcome, but that each register of the next state is then what it
would have been or, where the instruction does not write it, the value put there. -/
theorem exec_withStatus (i : Instr) (s : State) (r : RxStatus) (x : TxStatus) :
    ∃ (ρ : RxStatus → RxStatus) (τ : TxStatus → TxStatus), (ρ = id ∨ ρ = fun _ => r) ∧ (τ = id ∨ τ = fun _ => x) ∧
      exec i (s.withStatus r x) = mapNext (fun t => t.withStatus (ρ t.rxStatus) (τ t.txStatus)) (exec i s) := by
  rcases instr_kinds i with ⟨hsend, -⟩ | hin | rfl | rfl
  · refine ⟨fun _ => r, id, .inr rfl, .inl rfl, ?_⟩
    rcases hsend with hreject | hnoop | ⟨k, addr, payload, htransmit⟩
    · rw [hreject, hreject, mapNext]
      rfl
    · rw [hnoop, hnoop, mapNext]
      rfl
    · rw [htransmit, htransmit, State.transmit_emits, State.transmit_emits, mapNext]
      rfl
  · refine ⟨id, fun _ => x, .inl rfl, .inr rfl, ?_⟩
    rcases exec_inbound hin with ⟨c, hexec⟩ | ⟨kind, addr, bytelen, entries, hexec⟩
    · rw [hexec, hexec, mapNext]
      rfl
    · rw [hexec, hexec, mapNext]
      rfl
  · exact ⟨id, fun _ => x, .inl rfl, .inr rfl, execPoll_withStatus s r x⟩
  · exact ⟨id, id, .inl rfl, .inl rfl, rfl⟩

/-- Settles O33. -/
theorem statusRegistersAreInformational : Obligations.StatusRegistersAreInformational := by
  intro i s r r' x x'
  obtain ⟨ρ, τ, hρ, hτ, hexec⟩ := exec_withStatus i s r x
  refine ⟨fun t ht => ?_, fun f hf => ?_⟩
  · rw [ht, mapNext] at hexec
    exact ⟨_, hexec, rfl, hρ.imp (congrFun · t.rxStatus) (congrFun · t.rxStatus),
      hτ.imp (congrFun · t.txStatus) (congrFun · t.txStatus)⟩
  · rw [hf, mapNext] at hexec
    exact hexec

/-! ### The message's lifetime (R148) -/

/-- Settles O34: of the requests, a SEND keeps the receive half; a POLL overwrites `msg` and `rx_result` before it reads
anything. -/
theorem messageStaysUntilPollOrReset : Obligations.MessageStaysUntilPollOrReset := by
  refine ⟨fun s t h hpoll hreset => ?_, fun s t h => ?_, fun s m r => rfl, fun s t h ht => ?_⟩
  · rcases step_cases h with rfl | ⟨bytes, rest, -, rfl⟩ | ⟨r, rest, hin, hexec⟩
    · rfl
    · rfl
    · cases r with
      | poll => exact absurd hin (hpoll rest)
      | reset => exact absurd hin (hreset rest)
      | send q =>
        obtain ⟨-, -, -, -, -, hmsg, -⟩ := (sendsAlike_decodeSend q).sameRx_next hexec
        exact hmsg.symm
  · rw [exec_reset, Outcome.next.injEq] at h
    rw [← h]
    rfl
  · obtain ⟨-, -, -, -, -, -, -, hzero⟩ := execPoll_frame h
    exact hzero ht

end Sys2Proof.Machine

/-! PROOFS. The invariant of the state between operations (10_state.md R23, R26 to R28): RESET establishes it, every step
completes and keeps it. -/

namespace Sys2Proof.Machine

open Host (Outcome)

/-! ### The reset state -/

theorem resetWith_inv {p : Params} (h : p.Legal) : (State.resetWith p).Inv := by
  refine ⟨h, ⟨Memory.wf_nil, fun _ _ => rfl⟩, ⟨nofun, nofun⟩, ⟨?_, nofun, fun _ => rfl⟩, rfl⟩
  simp [State.resetWith, Msg.zero]

/-- Settles O37. -/
theorem resetStateMeetsInvariant : Obligations.ResetStateMeetsInvariant :=
  ⟨fun _ => resetWith_inv, resetWith_inv (by decide)⟩

/-- The invariant speaks of nothing in the environment. -/
theorem State.Inv.withEnvironment {s : State} (h : s.Inv) (chan seq : List Byte) (inputs : List HostInput) :
    State.Inv { s with rxChan := chan, txSeq := seq, inbox := inputs } := h

theorem exec_reset_inv {s : State} (h : s.cfg.Legal) : ∃ t, exec .reset s = .next t ∧ t.Inv :=
  ⟨_, exec_reset s, (resetWith_inv h).withEnvironment _ _ _⟩

/-- Settles O36. -/
theorem resetEstablishesInvariant : Obligations.ResetEstablishesInvariant := fun _ => exec_reset_inv

/-! ### SEND and POLL -/

theorem SendsAlike.exec_inv {i : Instr} (h : SendsAlike i) {s : State} (hinv : s.Inv) :
    ∃ t, exec i s = .next t ∧ t.Inv := by
  obtain ⟨hlegal, hbuf, hframe, hmsg, hstage⟩ := hinv
  obtain ⟨t, ht, hrx⟩ := h.sameRx s
  have hzero := h.txStage_zero ht hstage
  rw [← hrx.withTxOf_eq] at ht
  exact ⟨_, ht, hlegal, hbuf, hframe, hmsg, hzero⟩

/-- A byte that ends in RECEIVED wrote a message (R27, R146). -/
theorem Receives.msg_of_received {s t : State} {b : Byte} (hr : Receives s b t) (hs : s.rxResult = .nothing)
    (ht : t.rxResult = .received) : t.msg.kind ≠ .none ∧ t.rxStatus = .msg := by
  cases hr with
  | noise | stored | badHeader | badLength => exact nomatch hs.symm.trans ht
  | decoded _ _ cmd body =>
    rcases s.decodeArm_cases cmd body with ⟨c, -, -, -, -, hd⟩ | ⟨m, hm, -, hd⟩
    · rw [hd] at ht
      exact nomatch hs.symm.trans ht
    · rw [hd]
      exact ⟨hm, rfl⟩

/-- After a POLL `msg` holds a message exactly when `rx_result` is RECEIVED (R27). -/
theorem ReceiveInv.execPoll_msgInv {s t : State} (h : ReceiveInv s) (hpoll : execPoll s = .next t) : t.MsgInv := by
  obtain ⟨-, -, -, -, -, -, -, hzero⟩ := execPoll_frame hpoll
  have hreceived : t.rxResult = .received → t.msg.kind ≠ .none ∧ t.rxStatus = .msg := fun ht => by
    obtain ⟨b, -, hr⟩ := h.execPoll_received hpoll ht
    exact hr.msg_of_received rfl ht
  refine ⟨⟨fun hkind => ?_, fun ht => (hreceived ht).1⟩, fun ht => (hreceived ht).2, hzero⟩
  cases hres : t.rxResult with
  | received => rfl
  | nothing => exact absurd (congrArg Msg.kind (hzero hres)) hkind

theorem execPoll_inv {s : State} (hinv : s.Inv) : ∃ t, execPoll s = .next t ∧ t.Inv := by
  have h := ReceiveInv.of s hinv
  obtain ⟨t, -, hpoll, hrecv, -⟩ := h.execPoll_next
  obtain ⟨-, hstage, -⟩ := execPoll_frame hpoll
  obtain ⟨-, -, -, -, hzero⟩ := hinv
  exact ⟨t, hpoll, hrecv.legal, hrecv.buf, hrecv.frame, h.execPoll_msgInv hpoll, hstage.trans hzero⟩

/-! ### Every step -/

theorem exec_decodeRequest_inv {s : State} (h : s.Inv) (r : Request) :
    ∃ t, exec (decodeRequest r) s = .next t ∧ t.Inv := by
  cases r with
  | reset => exact exec_reset_inv (ReceiveInv.of s h).legal
  | poll => exact execPoll_inv h
  | send q => exact (sendsAlike_decodeSend q).exec_inv h

theorem step_inv {s : State} (h : s.Inv) : ∃ t, step s = .next t ∧ t.Inv := by
  cases hin : s.inbox with
  | nil => exact ⟨s, step_idle hin, h⟩
  | cons input rest =>
    cases input with
    | deliver bytes => exact ⟨_, step_deliver hin, h.withEnvironment _ _ _⟩
    | request r =>
      rw [step_request hin]
      exact exec_decodeRequest_inv (h.withEnvironment _ _ _) r

/-- Settles O39. -/
theorem everyStepCompletes : Obligations.EveryStepCompletes := by
  intro s h
  obtain ⟨t, ht, -⟩ := step_inv h
  exact ⟨t, ht⟩

/-- Settles O38. -/
theorem everyStepKeepsInvariant : Obligations.EveryStepKeepsInvariant := by
  intro s t h ht
  obtain ⟨u, hu, hinv⟩ := step_inv h
  rw [ht, Outcome.next.injEq] at hu
  exact hu ▸ hinv

/-- Settles O40: the invariant of the next state, part by part; R23 (d) follows from the others. -/
theorem receiveStateInvariants : Obligations.ReceiveStateInvariants := by
  intro s t h ht
  have hinv := everyStepKeepsInvariant s t h ht
  have hcap := (ReceiveInv.of t hinv).cap
  obtain ⟨-, ⟨-, hzero⟩, ⟨hhead, hrest⟩, ⟨hkind, hstatus, -⟩, -⟩ := hinv
  refine ⟨hhead, fun h3 => ?_, fun h3 => ?_, hcap, hzero, hkind, hstatus⟩ <;>
    obtain ⟨hh2, hpos, hfits, hpartial⟩ := hrest h3
  · exact ⟨hh2, hpos, hfits⟩
  · exact hpartial

end Sys2Proof.Machine
